-- ==== Sys2Proof/Word.lean ====
section
/-! DEFINITION. The words of the block: 8-bit characters, CW-bit code words and 16-bit command words
(spec/30_encoding.md rule R80, spec/00_scope.md rule R11). -/

namespace Sys2Proof

/-- CHAR8 (R80, R90): an 8-bit character code. -/
abbrev Byte := BitVec 8

/-- CW (R80, R84): a code word.  The width CW is a parameter with 2 ≤ CW ≤ 16 (R6); the type has the largest
legal width, and a code word of a narrower configuration has its upper bits 0 (notes/assumptions/7.md). -/
abbrev CodeWord := BitVec 16

/-- CMD16 (R80, R81): a host command word. -/
abbrev CmdWord := BitVec 16

end Sys2Proof
end

