-- ==== Sys2Proof/Config.lean ====
section
/-! DEFINITION. The elaboration-time parameters of the block and its fixed constants (spec/00_scope.md rules R6
to R9, spec/40_code_table.md rule R110).  Nothing here changes while the machine runs.  The model has no free
value: the spec leaves no result of an executed step undefined. -/

namespace Sys2Proof

/-- The configuration record of R6.  `n`, `alphabet` and `codes` are the code table (R110), the contents of the
read-only ROM (R41, R60 (b)).  `clkHz` and `wpm` are informative: no rule reads them (R6). -/
structure Config where
  /-- `N`: number of alphabet entries. -/
  n : Nat
  /-- `ALPHABET[0..N-1]`, `ROM.alpha`. -/
  alphabet : List Byte
  /-- `CODES[0..N-1]`, `ROM.code`. -/
  codes : List CodeWord
  /-- `CW`: width in bits of a code word and of `sr`. -/
  cw : Nat
  /-- `DIT_CYCLES`: clock cycles in one timing unit. -/
  ditCycles : Nat
  /-- `WARMUP_CYCLES`: clock cycles of the transmit-gate warm-up. -/
  warmupCycles : Nat
  /-- `MSG_MAX`: capacity of the message buffer in characters. -/
  msgMax : Nat
  /-- `TIMER_W`: width in bits of the hold timer. -/
  timerW : Nat
  /-- `CLK_HZ`: informative only. -/
  clkHz : Nat
  /-- `WPM`: informative only. -/
  wpm : Nat
deriving DecidableEq, Repr

/-- DAH_UNITS = 3 (R6). -/
def dahUnits : Nat := 3

/-- GAP_UNITS = 1 (R6). -/
def gapUnits : Nat := 1

/-- LETTER_UNITS = 3 (R6). -/
def letterUnits : Nat := 3

/-- WORD_UNITS = 7 (R6, R151): a defined constant that no segment uses (90_conflicts.md C3). -/
def wordUnits : Nat := 7

/-- SPACE_CODE = 1 (R6, R85): the code word of space. -/
def spaceCode : CodeWord := 1#16

end Sys2Proof
end

