-- ==== Sys2Proof/Syntax.lean ====
section
/-! DEFINITION. The instructions: the five host commands (spec/30_encoding.md rule R82) and the four unpacker
step kinds (rule R88), one constructor per row of spec/opcode_table.json. -/

namespace Sys2Proof

/-- The two kinds of word the block decodes (R80, opcode_table.json "format"). -/
inductive Format where
  /-- CMD16: a 16-bit host command word. -/
  | cmd16
  /-- CW: a code word. -/
  | cw
deriving DecidableEq, Repr

/-- One host command, or one decoded step of the code-word unpacker (R2). -/
inductive Instr where
  /-- NOP (R201). -/
  | nop
  /-- APPEND c (R202): `c` is the `data` field, 8 raw bits. -/
  | append (c : Byte)
  /-- CLEAR (R203). -/
  | clear
  /-- SEND (R204, R205): the input `suppress` is no part of the command word (R81). -/
  | send
  /-- ILLEGAL (R206): any command word `w` that no other CMD16 row matches (R83). -/
  | illegal (w : CmdWord)
  /-- CW.INVALID (R134): the code word 0. -/
  | cwInvalid
  /-- CW.END (R133): the code word 1. -/
  | cwEnd
  /-- CW.DIT (R132): a code word v ≥ 2 with v[0] = 0; `r` is the remainder v >> 1. -/
  | cwDit (r : BitVec 15)
  /-- CW.DAH (R132): a code word v ≥ 2 with v[0] = 1; `r` is the remainder v >> 1. -/
  | cwDah (r : BitVec 15)
deriving DecidableEq, Repr

/-- The format of an instruction's row in opcode_table.json. -/
def Instr.format : Instr → Format
  | .nop => .cmd16
  | .append _ => .cmd16
  | .clear => .cmd16
  | .send => .cmd16
  | .illegal _ => .cmd16
  | .cwInvalid => .cw
  | .cwEnd => .cw
  | .cwDit _ => .cw
  | .cwDah _ => .cw

end Sys2Proof
end

