-- ==== Sys2Proof/WellFormed.lean ====
section
/-! DEFINITION. Which configurations the model admits (spec/00_scope.md rules R6 and R9,
spec/40_code_table.md rule R111) and which instructions are well formed (spec/30_encoding.md rules R83, R88). -/

namespace Sys2Proof

/-- The legal ranges of R6, all but `TIMER_W`'s (`CLK_HZ` and `WPM` too: > 0). -/
def Config.rangesOk (c : Config) : Bool :=
  decide (1 ≤ c.n ∧ c.n ≤ 256) && (decide (2 ≤ c.cw ∧ c.cw ≤ 16)
    && (decide (1 ≤ c.ditCycles) && (decide (1 ≤ c.warmupCycles)
      && (decide (1 ≤ c.msgMax ∧ c.msgMax ≤ 255) && (decide (0 < c.clkHz) && decide (0 < c.wpm))))))

/-- The `TIMER_W` condition of R6: every loaded value `d - 1` fits in `TIMER_W` bits. -/
def Config.timerFits (c : Config) : Bool :=
  decide (max (3 * c.ditCycles) c.warmupCycles - 1 < 2 ^ c.timerW)

/-- WF1 (R111): ALPHABET and CODES both have N entries. -/
def Config.lockStep (c : Config) : Bool :=
  decide (c.alphabet.length = c.n) && decide (c.codes.length = c.n)

/-- WF2 (R111): no code word is 0. -/
def Config.codesNonzero (c : Config) : Bool := c.codes.all fun v => decide (v ≠ 0#16)

/-- WF3 (R111): every code word fits in CW bits. -/
def Config.codesFit (c : Config) : Bool := c.codes.all fun v => decide (v.toNat < 2 ^ c.cw)

/-- No character stands twice in the list. -/
def distinctChars : List Byte → Bool
  | [] => true
  | a :: as => as.all (fun b => decide (b ≠ a)) && distinctChars as

/-- WF4 (R111): the ALPHABET entries are pairwise distinct. -/
def Config.alphabetDistinct (c : Config) : Bool := distinctChars c.alphabet

/-- WF5 (R111): no ALPHABET entry lies in 0x61..0x7A. -/
def Config.alphabetNoLowercase (c : Config) : Bool :=
  c.alphabet.all fun a => decide (a.toNat < 0x61) || decide (0x7A < a.toNat)

/-- The configurations R9 admits. -/
def Config.wellFormed (c : Config) : Bool :=
  c.rangesOk && (c.timerFits && (c.lockStep && (c.codesNonzero && (c.codesFit && (c.alphabetDistinct
    && c.alphabetNoLowercase)))))

/-- A table that conforms to R116 at index 0: ALPHABET[0] = ' ' and CODES[0] = 1.  Not required of a legal
configuration (R116). -/
def Config.conformsAtSpace (c : Config) : Bool :=
  decide (c.alphabet[0]? = some 0x20#8) && decide (c.codes[0]? = some spaceCode)

/-- R82: the words of the four legal commands. -/
def isLegalCommand (w : CmdWord) : Bool :=
  decide (w = 0x0000#16) || (decide (w &&& 0xFF00#16 = 0x1000#16) || (decide (w = 0x2000#16)
    || decide (w = 0x3000#16)))

/-- An instruction is well formed when its operands are ones its row admits: an ILLEGAL word is matched by no
other row (R83), and the remainder of a symbol step is nonzero (R88: v ≥ 2). -/
def Instr.wellFormed : Instr → Bool
  | .nop => true
  | .append _ => true
  | .clear => true
  | .send => true
  | .illegal w => !isLegalCommand w
  | .cwInvalid => true
  | .cwEnd => true
  | .cwDit r => decide (r ≠ 0#15)
  | .cwDah r => decide (r ≠ 0#15)

/-- The code word of the instruction has at most `cw` bits (R84): the remainder of a symbol step has at most
`cw - 1`.  Every command word has 16 bits whatever `cw` is. -/
def Instr.fitsCw (cw : Nat) : Instr → Bool
  | .nop => true
  | .append _ => true
  | .clear => true
  | .send => true
  | .illegal _ => true
  | .cwInvalid => true
  | .cwEnd => true
  | .cwDit r => decide (2 * r.toNat < 2 ^ cw)
  | .cwDah r => decide (2 * r.toNat + 1 < 2 ^ cw)

end Sys2Proof
end

