-- ==== Sys2Proof/Decode.lean ====
section
/-! DEFINITION. The two decoders (spec/30_encoding.md rules R82, R88), the encoder written from the same
rules, and the decoder of a row of spec/opcode_table.json. -/

namespace Sys2Proof

/-! ## Command words -/

/-- CMD16 bits 15:12 (R81). -/
def opField (w : CmdWord) : BitVec 4 := w.extractLsb' 12 4

/-- CMD16 bits 11:8 (R81): 0 in every legal command. -/
def subField (w : CmdWord) : BitVec 4 := w.extractLsb' 8 4

/-- CMD16 bits 7:0 (R81): the character of APPEND, 8 raw bits. -/
def dataField (w : CmdWord) : Byte := w.extractLsb' 0 8

/-- The host-command decoder (R82, the dispatcher of R200).  Total: every word that no row matches is
ILLEGAL (R83). -/
def decodeCommand (w : CmdWord) : Instr :=
  if w = 0x0000#16 then .nop
  else if opField w = 0x1#4 ∧ subField w = 0x0#4 then .append (dataField w)
  else if w = 0x2000#16 then .clear
  else if w = 0x3000#16 then .send
  else .illegal w

/-! ## Code words -/

/-- Bit 0 of a code word is 1: the next symbol is a Dah (R84, R89). -/
def isDahBit (v : CodeWord) : Bool := v.getLsbD 0

/-- `v[CW-1:1]`, the remainder of a code word after its first symbol (R88). -/
def remainderField (v : CodeWord) : BitVec 15 := v.extractLsb' 1 15

/-- The unpacker's decoder (R88): rows top to bottom. -/
def decodeCodeWord (v : CodeWord) : Instr :=
  if v = 0#16 then .cwInvalid
  else if v = 1#16 then .cwEnd
  else if isDahBit v then .cwDah (remainderField v)
  else .cwDit (remainderField v)

/-- The decoder of each format. -/
def decodeFormat : Format → BitVec 16 → Instr
  | .cmd16, w => decodeCommand w
  | .cw, v => decodeCodeWord v

/-! ## Encoding -/

/-- The code word with remainder `r` and first symbol bit `b` (R84, R88). -/
def symbolWord (r : BitVec 15) (b : BitVec 1) : CodeWord := r ++ b

/-- The command word `op`, `sub`, `data` (R81). -/
def commandWord (op sub : BitVec 4) (data : Byte) : CmdWord := op ++ sub ++ data

/-- The word of an instruction: its CMD16 word (R82), or its code word (R88). -/
def encode : Instr → BitVec 16
  | .nop => commandWord 0x0#4 0x0#4 0x00#8
  | .append c => commandWord 0x1#4 0x0#4 c
  | .clear => commandWord 0x2#4 0x0#4 0x00#8
  | .send => commandWord 0x3#4 0x0#4 0x00#8
  | .illegal w => w
  | .cwInvalid => 0#16
  | .cwEnd => 1#16
  | .cwDit r => symbolWord r 0#1
  | .cwDah r => symbolWord r 1#1

/-! ## Rows of the opcode table -/

/-- Why a table word is rejected. -/
inductive DecodeError where
  /-- No row of opcode_table.json has this number of bits: CMD16 rows have 16 and CW rows, shown at CW = 8, have 8. -/
  | noFormatOfWidth
  /-- The word has a bit at or above the number of bits given. -/
  | wordTooWide
deriving DecidableEq, Repr

/-- The format of the rows of opcode_table.json with that many bits. -/
def formatOfWidth (nbits : Nat) : Option Format :=
  if nbits = 16 then some .cmd16 else if nbits = 8 then some .cw else none

/-- Decode a word of `nbits` bits as the table's row of that width, or reject it by name
(notes/assumptions/20.md). -/
def decodeBits (nbits w : Nat) : Except DecodeError Instr :=
  match formatOfWidth nbits with
  | none => .error .noFormatOfWidth
  | some f => if w < 2 ^ nbits then .ok (decodeFormat f (BitVec.ofNat 16 w)) else .error .wordTooWide

/-- The instruction the decoder reads from a table row's word (`none` where it rejects the word). -/
def decodeTableWord (nbits w : Nat) : Option Instr :=
  match decodeBits nbits w with
  | .ok i => some i
  | .error _ => none

end Sys2Proof
end

