-- ==== Sys2Proof/Machine/DefaultConfig.lean ====
section
/-! DEFINITION. The configuration that `State.reset` carries.  DESIGN CHOICE (notes/assumptions/2.md): every
parameter of R6 is open, so no statement rests on the values below; a statement holds for every
well-formed configuration. -/

namespace Sys2Proof.Machine

/-- DEFAULT37 (spec/40_code_table.md rule R117, informative): the characters ' ' and 'A' to 'M'. -/
def default37AtoM : List (Byte × CodeWord) :=
  [(0x20#8, 1#16), (0x41#8, 6#16), (0x42#8, 17#16), (0x43#8, 21#16), (0x44#8, 9#16), (0x45#8, 2#16),
   (0x46#8, 20#16), (0x47#8, 11#16), (0x48#8, 16#16), (0x49#8, 4#16), (0x4A#8, 30#16), (0x4B#8, 13#16),
   (0x4C#8, 18#16), (0x4D#8, 7#16)]

/-- DEFAULT37 (R117): the characters 'N' to 'Z'. -/
def default37NtoZ : List (Byte × CodeWord) :=
  [(0x4E#8, 5#16), (0x4F#8, 15#16), (0x50#8, 22#16), (0x51#8, 27#16), (0x52#8, 10#16), (0x53#8, 8#16),
   (0x54#8, 3#16), (0x55#8, 12#16), (0x56#8, 24#16), (0x57#8, 14#16), (0x58#8, 25#16), (0x59#8, 29#16),
   (0x5A#8, 19#16)]

/-- DEFAULT37 (R117): the characters '0' to '9'. -/
def default37Digits : List (Byte × CodeWord) :=
  [(0x30#8, 63#16), (0x31#8, 62#16), (0x32#8, 60#16), (0x33#8, 56#16), (0x34#8, 48#16), (0x35#8, 32#16),
   (0x36#8, 33#16), (0x37#8, 35#16), (0x38#8, 39#16), (0x39#8, 47#16)]

/-- DEFAULT37 (R117), in its index order. -/
def default37 : List (Byte × CodeWord) := default37AtoM ++ (default37NtoZ ++ default37Digits)

/-- The default configuration: CW = 8 (R6, D9) and MSG_MAX = 64 (R6, D5) are the spec's defaults; the table is
DEFAULT37 and DIT_CYCLES = 1, WARMUP_CYCLES = 2 are those of program P1 (95_test_vectors.md); TIMER_W = 2 is the
smallest legal width (D36).  CLK_HZ = 8 and WPM = 10 are read by no rule. -/
def defaultConfig : Config where
  n := 37
  alphabet := default37.map Prod.fst
  codes := default37.map Prod.snd
  cw := 8
  ditCycles := 1
  warmupCycles := 2
  msgMax := 64
  timerW := 2
  clkHz := 8
  wpm := 10

end Sys2Proof.Machine
end

