-- ==== Sys2Proof/Machine/State.lean ====
section
/-! DEFINITION. The state of the block as plain data (spec/10_state.md rules R31 to R44), the reasons a model step
can stop, and the state after reset (spec/70_reset_and_hazards.md rule R260). -/

namespace Sys2Proof.Machine

/-- The 3-bit register `phase` (R32), one constructor per value 0 to 7. -/
inductive Phase where
  /-- 0: no transmission, commands are accepted. -/
  | idle
  /-- 1: gate on, waiting the warm-up. -/
  | warmup
  /-- 2: a symbol is being emitted. -/
  | mark
  /-- 3: the 1 u gap after a MARK. -/
  | elemGap
  /-- 4: the hold for a character whose code word is the space sentinel. -/
  | charSpace
  /-- 5: the letter-space hold after every character. -/
  | letterSpace
  /-- 6: unused, the next edge loads IDLE (R177). -/
  | unused6
  /-- 7: unused, the next edge loads IDLE (R177). -/
  | unused7
deriving DecidableEq, Repr

/-- SYM1 (R89), the value of the 1-bit register `sym` (R37): 0 = Dit, 1 = Dah. -/
inductive Symbol where
  /-- 0: the short element, 1 u long. -/
  | dit
  /-- 1: the long element, 3 u long. -/
  | dah
deriving DecidableEq, Repr

/-- The input ports the block samples at one rising edge (R44).  `clk` is the step itself. -/
structure Inputs where
  rst : Bool
  cmdValid : Bool
  cmd : CmdWord
  suppress : Bool
deriving DecidableEq, Repr

/-- The levels of a host that asserts nothing. -/
def Inputs.quiet : Inputs := ⟨false, false, 0#16, false⟩

/-- The message buffer MB (R40, R60 (a)) as (index, character) pairs, the indices strictly rising.  An index that
is not listed has no value: nothing has written that entry (R31, R71; notes/assumptions/5.md). -/
abbrev Memory := List Host.Cell

/-- Everything one step reads and writes.  `cfg` is the configuration record of R6, which the spec does not
call state: no step changes it (notes/assumptions/1.md).  `phase` to `mb` are the registers and the buffer of R31,
each read and written as that rule says.  `inputs` is the host's choice of the inputs of R44 at the coming edges,
the next edge's first (notes/assumptions/3.md).
`timer` is a number below 2^TIMER_W (notes/assumptions/8.md). -/
structure State where
  cfg : Config
  phase : Phase
  timer : Nat
  idx : BitVec 8
  len : BitVec 8
  sr : CodeWord
  sym : Symbol
  ovf : Bool
  ill : Bool
  mb : Memory
  inputs : List Inputs
deriving DecidableEq, Repr

/-- Why a model step can fault.  The hardware raises no fault (R230): no state reachable from reset reaches one. -/
inductive Fault where
  /-- A character start read an MB entry that nothing has written (R71: "Reading one would be a model fault").
  Raised by `readEntry`; safe (notes/assumptions/5.md). -/
  | unwrittenEntry
  /-- A character start read MB at an index of MSG_MAX or above, which does not exist (R60 (a)).
  Raised by `readEntry`; safe (notes/assumptions/6.md). -/
  | noSuchEntry
deriving DecidableEq, Repr

/-- Why the model can refuse a step. -/
inductive Refusal where
  /-- An instruction without a meaning in this model; no arm answers with it.  Raised by `exec`; safe. -/
  | notModelled (mnemonic : String)
  /-- The configuration breaks a constraint of R9, and the spec gives it no semantics.  Raised by `step`; safe
  (notes/assumptions/17.md). -/
  | illFormedConfig
deriving DecidableEq, Repr

/-- `s_0` (R260, R31): IDLE, every register at its reset value and MB unwritten.  The configuration is the default
one (notes/assumptions/2.md), and the host has placed no input yet. -/
def State.reset : State where
  cfg := defaultConfig
  phase := .idle
  timer := 0
  idx := 0#8
  len := 0#8
  sr := 1#16
  sym := .dit
  ovf := false
  ill := false
  mb := []
  inputs := []

end Sys2Proof.Machine
end

