-- ==== Sys2Proof/Machine/Ops.lean ====
section
/-! DEFINITION. The named operations over memory and registers.  The block takes no exception and returns from
none (spec/60_exceptions.md rules R230, R234, R235), so no such operation stands here; reset is the only event
that overrides a step (R233 item 1). -/

namespace Sys2Proof.Machine

/-! ## The message buffer (spec/20_memory.md rules R60, R63, R71) -/

/-- The character at an index, if one has been written. -/
def Memory.read : Memory → Nat → Option Byte
  | [], _ => none
  | (a, b) :: m, i => if a = i then some b else Memory.read m i

/-- `MB[i] <- v`, keeping the indices strictly rising. -/
def Memory.write : Memory → Nat → Byte → Memory
  | [], i, v => [(i, v)]
  | (a, b) :: m, i, v =>
    if i < a then (i, v) :: (a, b) :: m
    else if i = a then (i, v) :: m
    else (a, b) :: Memory.write m i v

/-- The canonical form: the indices strictly rising.  An unlisted entry has no value, so no listed entry equals
what an unlisted one reads as. -/
def Memory.wf : Memory → Bool
  | [] => true
  | [_] => true
  | (a, _) :: (b, y) :: m => decide (a < b) && Memory.wf ((b, y) :: m)

/-- Every listed index is below `n`. -/
def Memory.within (n : Nat) (m : Memory) : Bool := m.all fun cell => decide (cell.1 < n)

/-- `MB[i]`, read at a character start (R171).  An unwritten entry and an index that does not exist are model
faults (R71, R60 (a); notes/assumptions/5.md and 6.md). -/
def readEntry (s : State) (i : Nat) : Except Fault Byte :=
  if i < s.cfg.msgMax then
    match Memory.read s.mb i with
    | some c => .ok c
    | none => .error .unwrittenEntry
  else .error .noSuchEntry

/-- The message `MB[0..len-1]` in transmit order (R64), the characters that have been written. -/
def message (s : State) : List Byte := (List.range s.len.toNat).filterMap (Memory.read s.mb)

/-! ## The host's inputs (R44, R13) -/

/-- The inputs at the edge `k` edges from now; a host with nothing more listed asserts nothing. -/
def State.inputAt (s : State) (k : Nat) : Inputs := (s.inputs[k]?).getD Inputs.quiet

/-- The inputs sampled at the coming edge. -/
def State.sampled (s : State) : Inputs := s.inputAt 0

/-- The edge has passed: the next edge samples the next inputs. -/
def dropInput (s : State) : State := { s with inputs := s.inputs.drop 1 }

/-- Apply a function to the state of a `next` outcome. -/
def mapNext (f : State → State) :
    Host.Outcome State Fault Refusal → Host.Outcome State Fault Refusal
  | .next s => .next (f s)
  | .fault r => .fault r
  | .refused r => .refused r

/-! ## Segments (spec/42_keying_driver.md rules R151 to R153) -/

/-- Length of a MARK (R152): 1 u for a Dit, 3 u for a Dah. -/
def markCycles (c : Config) (sym : Symbol) : Nat :=
  c.ditCycles * (match sym with | .dit => 1 | .dah => dahUnits)

/-- Length of an ELEM_GAP (R151): 1 u. -/
def gapCycles (c : Config) : Nat := c.ditCycles * gapUnits

/-- Length of a CHAR_SPACE or a LETTER_SPACE (R151): 3 u. -/
def letterCycles (c : Config) : Nat := letterUnits * c.ditCycles

/-- `dur(phase, sym)` (R151); IDLE is unbounded and the unused values have no segment. -/
def dur (c : Config) : Phase → Symbol → Option Nat
  | .idle, _ => none
  | .warmup, _ => some c.warmupCycles
  | .mark, sym => some (markCycles c sym)
  | .elemGap, _ => some (gapCycles c)
  | .charSpace, _ => some (letterCycles c)
  | .letterSpace, _ => some (letterCycles c)
  | .unused6, _ => none
  | .unused7, _ => none

/-- `enter(p, d)` (R153): begin a segment of phase `p` lasting `d` cycles. -/
def enter (p : Phase) (d : Nat) (s : State) : State := { s with phase := p, timer := d - 1 }

/-- The timer decrements (R154). -/
def tick (s : State) : State := { s with timer := s.timer - 1 }

/-- The gate falls at the end of a message (R171, the `i == len` branch; SET_GATE(0) of R157). -/
def stopTransmission (s : State) : State := { s with phase := .idle, timer := 0 }

/-! ## Reset (spec/70_reset_and_hazards.md rule R260) -/

/-- `reset()`: every register takes its reset value; MB is not written. -/
def resetRegisters (s : State) : State :=
  { s with phase := .idle, timer := 0, idx := 0#8, len := 0#8, sr := 1#16, sym := .dit, ovf := false, ill := false }

/-! ## Placing a word (notes/assumptions/4.md) -/

/-- The host offers the command word `w` at the coming edge, in IDLE and without reset, so that edge accepts it
(R200). -/
def offerCommand (w : CmdWord) (s : State) : State :=
  { s with phase := .idle, inputs := { s.sampled with rst := false, cmdValid := true, cmd := w } :: s.inputs.drop 1 }

/-- An ELEM_GAP ends at the coming edge, without reset, and `sr` holds `v`, so that edge decodes `v` (R174). -/
def offerCodeWord (v : CodeWord) (s : State) : State :=
  { s with phase := .elemGap, timer := 0, sr := v, inputs := { s.sampled with rst := false } :: s.inputs.drop 1 }

/-- Place a word of an opcode-table row where the next step decodes it. -/
def placeWord (s : State) (nbits w : Nat) : State :=
  match formatOfWidth nbits with
  | some .cmd16 => offerCommand (BitVec.ofNat 16 w) s
  | some .cw => offerCodeWord (BitVec.ofNat 16 w) s
  | none => s

end Sys2Proof.Machine
end

