-- ==== Sys2Proof/Machine/Flags.lean ====
section
/-! DEFINITION. The sticky flags `ovf` and `ill` (spec/10_state.md rules R38, R39, R46; spec/60_exceptions.md rule
R231).  The block has no other flag and no condition code. -/

namespace Sys2Proof.Machine

/-- An APPEND was dropped: `ovf <- 1` (R38). -/
def setOvf (s : State) : State := { s with ovf := true }

/-- An illegal command word was accepted: `ill <- 1` (R39). -/
def setIll (s : State) : State := { s with ill := true }

/-- CLEAR clears both sticky flags (R203). -/
def clearFlags (s : State) : State := { s with ovf := false, ill := false }

end Sys2Proof.Machine
end

