-- ==== Sys2Proof/Machine/Operands.lean ====
section
/-! DEFINITION. The operands of the unpacker: UPCASE and LOOKUP (spec/40_code_table.md rules R112 to R115), the
symbols of a code word, EXPAND and COLLAPSE (spec/30_encoding.md rules R84 to R89, spec/41_symbol_encoder.md
rules R131 to R137). -/

namespace Sys2Proof.Machine

/-- UPCASE (R112). -/
def upcase (c : Byte) : Byte :=
  if 0x61 ≤ c.toNat ∧ c.toNat ≤ 0x7A then c - 0x20#8 else c

/-- The search of LOOKUP over the table's entries: the lowest matching index wins, a miss is SPACE_CODE (R114). -/
def lookupIn : List Byte → List CodeWord → Byte → CodeWord
  | a :: as, v :: vs, c => if a = c then v else lookupIn as vs c
  | _, _, _ => spaceCode

/-- LOOKUP (R113), a function of the whole ROM. -/
def lookup (cfg : Config) (c : Byte) : CodeWord := lookupIn cfg.alphabet cfg.codes c

/-- The code word of a character of the message: `lookup(upcase(c))` (R171). -/
def codeOf (cfg : Config) (c : Byte) : CodeWord := lookup cfg (upcase c)

/-- The first symbol of a code word v ≥ 2, which is v[0] (R84, R89). -/
def firstSymbol (v : CodeWord) : Symbol := if v.getLsbD 0 then .dah else .dit

/-- The value of a symbol as a bit (R89). -/
def Symbol.toBit : Symbol → BitVec 1
  | .dit => 0#1
  | .dah => 1#1

/-- `v >> 1`, a logical shift filling with zero (R137). -/
def shiftRight1 (v : CodeWord) : CodeWord := v >>> 1

/-- The loop of EXPAND (R131), with `fuel` a bound on its turns. -/
def expandLoop : Nat → CodeWord → List Symbol
  | 0, _ => []
  | fuel + 1, v => if v = 1#16 then [] else firstSymbol v :: expandLoop fuel (shiftRight1 v)

/-- EXPAND (R131): the symbols of a code word, first sent first; 0 is treated as space (R134).  A code word of 16
bits reaches 1 in at most 15 shifts (R135). -/
def expand (v : CodeWord) : List Symbol := if v = 0#16 then [] else expandLoop 16 v

/-- COLLAPSE (R86): 2^L + Σ s_i 2^i, as a number. -/
def collapse : List Symbol → Nat
  | [] => 1
  | .dit :: ss => 2 * collapse ss
  | .dah :: ss => 2 * collapse ss + 1

end Sys2Proof.Machine
end

