-- ==== Sys2Proof/Machine/Commands.lean ====
section
/-! DEFINITION. The meanings of the host commands (spec/44_host_commands.md rules R201 to R206).  Each is the effect
of a command once accepted; `clockEdge` decides acceptance (R200, R207; notes/assumptions/9.md). -/

namespace Sys2Proof.Machine

/-- NOP (R201): nothing. -/
def execNop (s : State) : Host.Outcome State Fault Refusal := .next s

/-- APPEND c (R202): store the raw character at `MB[len]`, or drop it and set `ovf` when the buffer is full. -/
def execAppend (c : Byte) (s : State) : Host.Outcome State Fault Refusal :=
  if s.len.toNat < s.cfg.msgMax then
    .next { s with mb := Memory.write s.mb s.len.toNat c, len := s.len + 1#8 }
  else .next (setOvf s)

/-- CLEAR (R203): `len`, `ovf` and `ill` to 0; MB is not changed. -/
def execClear (s : State) : Host.Outcome State Fault Refusal := .next { clearFlags s with len := 0#8 }

/-- SEND: with `suppress = 0` at the accepting edge, character 0 is next and the warm-up begins (R204); with
`suppress = 1`, nothing (R205). -/
def execSend (s : State) : Host.Outcome State Fault Refusal :=
  if s.sampled.suppress then .next s
  else .next (enter .warmup s.cfg.warmupCycles { s with idx := 0#8 })

/-- ILLEGAL (R206): `ill <- 1`; the word itself is not recorded (R231; notes/assumptions/15.md). -/
def execIllegal (s : State) : Host.Outcome State Fault Refusal := .next (setIll s)

end Sys2Proof.Machine
end

