-- ==== Sys2Proof/Machine/Unpacker.lean ====
section
/-! DEFINITION. The meanings of the unpacker's step kinds (spec/41_symbol_encoder.md rules R132 to R134).  Each is the
effect of the step at the place where the block decodes a code word: a character start (R171) or the end of
an ELEM_GAP (R174). -/

namespace Sys2Proof.Machine

/-- `unpack_step(v)` (R132): the symbol goes to `sym`, the rest to `sr`, and its MARK begins. -/
def unpackStep (v : CodeWord) (s : State) : State :=
  enter .mark (markCycles s.cfg (firstSymbol v)) { s with sym := firstSymbol v, sr := shiftRight1 v }

/-- No further symbol (R133): at the end of an ELEM_GAP the character is complete, and LETTER_SPACE begins
(R174); at a character start the code word is a space, and CHAR_SPACE begins (R171).  The block decodes a code
word nowhere else (notes/assumptions/10.md). -/
def endOfCode (s : State) : State :=
  if s.phase = .elemGap then enter .letterSpace (letterCycles s.cfg) s
  else enter .charSpace (letterCycles s.cfg) s

/-- CW.INVALID (R134): exactly as END at the same place. -/
def execCwInvalid (s : State) : Host.Outcome State Fault Refusal := .next (endOfCode s)

/-- CW.END (R133). -/
def execCwEnd (s : State) : Host.Outcome State Fault Refusal := .next (endOfCode s)

/-- CW.DIT (R132) with remainder `r`: the code word is `r` followed by the symbol bit 0
(for `r = 0`, outside R132's precondition: notes/assumptions/18.md). -/
def execCwDit (r : BitVec 15) (s : State) : Host.Outcome State Fault Refusal :=
  .next (unpackStep (symbolWord r 0#1) s)

/-- CW.DAH (R132) with remainder `r`: the code word is `r` followed by the symbol bit 1
(for `r = 0`, outside R132's precondition: notes/assumptions/18.md). -/
def execCwDah (r : BitVec 15) (s : State) : Host.Outcome State Fault Refusal :=
  .next (unpackStep (symbolWord r 1#1) s)

end Sys2Proof.Machine
end

