-- ==== Sys2Proof/Machine/Dispatch.lean ====
section
/-! DEFINITION. One arm per instruction, each a direct call of its meaning. -/

namespace Sys2Proof.Machine

-- host commands: the effect of an accepted word (R201 to R206); unpacker steps: R132 to R134
def exec (i : Instr) (s : State) : Host.Outcome State Fault Refusal :=
  match i with
  | .nop => Sys2Proof.Machine.execNop s
  | .append c => Sys2Proof.Machine.execAppend c s
  | .clear => Sys2Proof.Machine.execClear s
  | .send => Sys2Proof.Machine.execSend s
  | .illegal _ => Sys2Proof.Machine.execIllegal s
  | .cwInvalid => Sys2Proof.Machine.execCwInvalid s
  | .cwEnd => Sys2Proof.Machine.execCwEnd s
  | .cwDit r => Sys2Proof.Machine.execCwDit r s
  | .cwDah r => Sys2Proof.Machine.execCwDah r s

end Sys2Proof.Machine
end

