-- ==== Sys2Proof/Machine/Outputs.lean ====
section
/-! DEFINITION. The output ports, all decoded from the current state (spec/10_state.md rules R42, R43), and the
binary values of `phase` (R32). -/

namespace Sys2Proof.Machine

/-- The value of `phase` as its 3 bits (R32). -/
def Phase.toBits : Phase → BitVec 3
  | .idle => 0#3
  | .warmup => 1#3
  | .mark => 2#3
  | .elemGap => 3#3
  | .charSpace => 4#3
  | .letterSpace => 5#3
  | .unused6 => 6#3
  | .unused7 => 7#3

/-- The phase with a binary value (R32). -/
def Phase.ofBits (b : BitVec 3) : Phase :=
  if b = 0#3 then .idle
  else if b = 1#3 then .warmup
  else if b = 2#3 then .mark
  else if b = 3#3 then .elemGap
  else if b = 4#3 then .charSpace
  else if b = 5#3 then .letterSpace
  else if b = 6#3 then .unused6
  else .unused7

/-- `gate_out` in a phase (R32, R42). -/
def Phase.gate : Phase → Bool
  | .idle => false
  | .warmup => true
  | .mark => true
  | .elemGap => true
  | .charSpace => true
  | .letterSpace => true
  | .unused6 => false
  | .unused7 => false

/-- `key_out` in a phase (R32, R42): 1 in MARK alone. -/
def Phase.key : Phase → Bool
  | .idle => false
  | .warmup => false
  | .mark => true
  | .elemGap => false
  | .charSpace => false
  | .letterSpace => false
  | .unused6 => false
  | .unused7 => false

/-- The transmit gate (R42, R157). -/
def State.gateOut (s : State) : Bool := s.phase.gate

/-- The keying level (R42, R156). -/
def State.keyOut (s : State) : Bool := s.phase.key

/-- The audio-tone channel, a keying level (R42, R156). -/
def State.toneOut (s : State) : Bool := s.keyOut

/-- The visual-indicator channel (R42, R156). -/
def State.ledOut (s : State) : Bool := s.keyOut

/-- `busy = (phase != 0)` (R42). -/
def State.busy (s : State) : Bool := decide (s.phase ≠ .idle)

/-- `cmd_ready = (phase == 0)` (R42). -/
def State.cmdReady (s : State) : Bool := decide (s.phase = .idle)

/-- STATUS16 (R43): LEN in 15:8, zeros in 7:5, then ILL, OVF, KEY, GATE and BUSY down to bit 0. -/
def State.status (s : State) : BitVec 16 :=
  s.len ++ 0#3 ++ BitVec.ofBool s.ill ++ BitVec.ofBool s.ovf ++ BitVec.ofBool s.keyOut
    ++ BitVec.ofBool s.gateOut ++ BitVec.ofBool s.busy

/-- All the output ports of R42. -/
structure Outputs where
  gateOut : Bool
  keyOut : Bool
  toneOut : Bool
  ledOut : Bool
  busy : Bool
  cmdReady : Bool
  status : BitVec 16
deriving DecidableEq, Repr

/-- The outputs in the cycle of a state (R42: a Moore machine). -/
def State.outputs (s : State) : Outputs where
  gateOut := s.gateOut
  keyOut := s.keyOut
  toneOut := s.toneOut
  ledOut := s.ledOut
  busy := s.busy
  cmdReady := s.cmdReady
  status := s.status

/-- The document's keying-driver states (R159). -/
inductive KeyingState where
  /-- `phase` is MARK or ELEM_GAP. -/
  | emitting
  /-- Every other phase. -/
  | idle
deriving DecidableEq, Repr

/-- The keying driver's state in a phase (R159). -/
def Phase.keying : Phase → KeyingState
  | .mark => .emitting
  | .elemGap => .emitting
  | .idle => .idle
  | .warmup => .idle
  | .charSpace => .idle
  | .letterSpace => .idle
  | .unused6 => .idle
  | .unused7 => .idle

end Sys2Proof.Machine
end

