-- ==== Sys2Proof/Machine/Transmitter.lean ====
section
/-! DEFINITION. The message-transmitter FSM: the step function of one rising edge (spec/43_message_transmitter.md
rules R170 to R177) and the acceptance of commands (spec/44_host_commands.md rules R200, R207). -/

namespace Sys2Proof.Machine

/-- A command word is accepted at the coming edge (R200). -/
def State.accepts (s : State) : Bool := !s.sampled.rst && s.sampled.cmdValid && s.cmdReady

/-- `start_char(i)` (R171): end the transmission when no character is left, else decode the code word of character
`i` and run its unpacker step (outside R171's operand range: notes/assumptions/18.md). -/
def startChar (i : BitVec 8) (s : State) : Host.Outcome State Fault Refusal :=
  if i = s.len then .next (stopTransmission { s with idx := i })
  else
    match readEntry s i.toNat with
    | .ok c => exec (decodeCodeWord (codeOf s.cfg c)) { s with idx := i }
    | .error f => .fault f

/-- `end_of_segment(phase)` (R172 to R176).  IDLE and the unused phases have no segment; `clockEdge` never calls it
there. -/
def endOfSegment (s : State) : Host.Outcome State Fault Refusal :=
  match s.phase with
  | .warmup => startChar 0#8 s
  | .mark => .next (enter .elemGap (gapCycles s.cfg) s)
  | .elemGap => exec (decodeCodeWord s.sr) s
  | .charSpace => .next (enter .letterSpace (letterCycles s.cfg) s)
  | .letterSpace => startChar (s.idx + 1#8) s
  | .idle => .next s
  | .unused6 => .next s
  | .unused7 => .next s

/-- The segment countdown (R154). -/
def runSegment (s : State) : Host.Outcome State Fault Refusal :=
  if s.timer ≠ 0 then .next (tick s) else endOfSegment s

/-- `execute_command(cmd, suppress)` (R200): the accepted word's effect. -/
def executeCommand (s : State) : Host.Outcome State Fault Refusal := exec (decodeCommand s.sampled.cmd) s

/-- An edge in IDLE without reset (R170, R200): an offered command is accepted, else nothing changes. -/
def idleEdge (s : State) : Host.Outcome State Fault Refusal :=
  if s.sampled.cmdValid then executeCommand s else .next s

/-- `step()` (R170): reset, then IDLE, then the running segment, then the unused phases (R177). -/
def clockEdge (s : State) : Host.Outcome State Fault Refusal :=
  if s.sampled.rst then .next (resetRegisters s)
  else
    match s.phase with
    | .idle => idleEdge s
    | .warmup => runSegment s
    | .mark => runSegment s
    | .elemGap => runSegment s
    | .charSpace => runSegment s
    | .letterSpace => runSegment s
    | .unused6 => .next { s with phase := .idle }
    | .unused7 => .next { s with phase := .idle }

/-- One rising edge: the step of R170 on the inputs of this edge, after which the next edge's inputs stand first. -/
def edgeOutcome (s : State) : Host.Outcome State Fault Refusal := mapNext dropInput (clockEdge s)

/-- A configuration that breaks a constraint of R9 has no semantics: every step over it is refused
(notes/assumptions/17.md). -/
def guardedEdge (s : State) : Host.Outcome State Fault Refusal :=
  if s.cfg.wellFormed then edgeOutcome s else .refused .illFormedConfig

end Sys2Proof.Machine
end

