-- ==== Sys2Proof/Machine/Step.lean ====
section
/-! DEFINITION. One model step, which is one rising clock edge (spec/00_scope.md rules R3, R13), runs of steps, and how
a word of the opcode table is placed for the next step. -/

namespace Sys2Proof.Machine

/-- One rising clock edge (R13, R170), for a configuration the model admits (R9). -/
def step (s : State) : Host.Outcome State Fault Refusal := guardedEdge s

/-- `k` edges, stopping at the first fault or refusal. -/
def run : Nat → State → Host.Outcome State Fault Refusal
  | 0, s => .next s
  | k + 1, s =>
    match step s with
    | .next t => run k t
    | .fault r => .fault r
    | .refused r => .refused r

/-- `s` with a table row's word placed where the next step decodes it (notes/assumptions/4.md). -/
def State.withFetchWord (s : State) (nbits w : Nat) : State := placeWord s nbits w

end Sys2Proof.Machine
end

