-- ==== Sys2Proof/Machine/HostAgent.lean ====
section
/-! DEFINITION. The second agent of the model (spec/10_state.md rule R30): a host that issues commands in order and holds
each one until it is accepted (spec/44_host_commands.md rule R200), and the assembler it is written in
(spec/30_encoding.md rule R92).  `step` is not restricted to such a host: it takes any inputs (R44).
The spelling of a line in characters is notation only (92_eei_decisions.md D30) and is not modelled
(notes/assumptions/19.md). -/

namespace Sys2Proof.Machine

/-- A line of host assembler (R92). -/
inductive AsmLine where
  /-- `NOP` -/
  | nop
  /-- `APPEND 'c'` and `APPEND 0xhh` -/
  | append (c : Byte)
  /-- `CLEAR` -/
  | clear
  /-- `SEND [suppress=0|1]`; an absent `suppress` is 0 (95_test_vectors.md section 3) -/
  | send (suppress : Bool)
  /-- `.word 0xhhhh`: any raw word, including illegal ones -/
  | word (w : CmdWord)
  /-- `MSG "text"`: CLEAR, then one APPEND for each byte -/
  | msg (text : List Byte)
  /-- `SENDMSG "text"`: MSG "text", then SEND -/
  | sendMsg (text : List Byte)
  /-- `APPENDSTR "text"`: one APPEND for each byte, no CLEAR -/
  | appendStr (text : List Byte)
deriving DecidableEq, Repr

/-- A command word the host issues, with the level of `suppress` it drives while it offers the word. -/
structure Offer where
  cmd : CmdWord
  suppress : Bool
deriving DecidableEq, Repr

/-- The offer of an instruction's word with `suppress = 0`. -/
def offerOf (i : Instr) : Offer := ⟨encode i, false⟩

/-- The words of a line, pseudo-instructions expanded (R92). -/
def assembleLine : AsmLine → List Offer
  | .nop => [offerOf .nop]
  | .append c => [offerOf (.append c)]
  | .clear => [offerOf .clear]
  | .send suppress => [⟨encode .send, suppress⟩]
  | .word w => [⟨w, false⟩]
  | .msg text => offerOf .clear :: text.map fun c => offerOf (.append c)
  | .sendMsg text => offerOf .clear :: (text.map (fun c => offerOf (.append c)) ++ [offerOf .send])
  | .appendStr text => text.map fun c => offerOf (.append c)

/-- The words of a host program in order. -/
def assemble (lines : List AsmLine) : List Offer := lines.flatMap assembleLine

/-- The inputs such a host drives at an edge: its next command, or nothing when all are accepted. -/
def driveInputs : List Offer → Inputs
  | [] => Inputs.quiet
  | o :: _ => ⟨false, true, o.cmd, o.suppress⟩

/-- The commands left after an edge: the host goes on to the next one when this one was accepted (R200). -/
def offersAfter (accepted : Bool) : List Offer → List Offer
  | [] => []
  | o :: os => if accepted then os else o :: os

/-- The block and this host together for `k` edges: what is left to offer, and the block's state. -/
def runHost : Nat → List Offer → State → Host.Outcome State Fault Refusal
  | 0, _, s => .next s
  | k + 1, os, s =>
    match step { s with inputs := [driveInputs os] } with
    | .next t => runHost k (offersAfter (State.accepts { s with inputs := [driveInputs os] }) os) t
    | .fault r => .fault r
    | .refused r => .refused r

end Sys2Proof.Machine
end

