-- ==== Sys2Proof/Machine/Timeline.lean ====
section
/-! DEFINITION. TRANSMIT as the list of its segments (spec/43_message_transmitter.md rules R178, R179; spec/00_scope.md
rule R14), a clear description that the machine's run is compared with.  The machine does not call it. -/

namespace Sys2Proof.Machine

/-- A maximal run of cycles with one phase value (R14). -/
structure Segment where
  phase : Phase
  cycles : Nat
deriving DecidableEq, Repr

/-- EMIT_SYMBOL (R155): the MARK of the symbol and its ELEM_GAP. -/
def symbolSegments (c : Config) (sym : Symbol) : List Segment :=
  [⟨.mark, markCycles c sym⟩, ⟨.elemGap, gapCycles c⟩]

/-- The segments of a character whose code word is `v` (R178). -/
def codeSegments (c : Config) (v : CodeWord) : List Segment :=
  if v.toNat ≤ 1 then [⟨.charSpace, letterCycles c⟩, ⟨.letterSpace, letterCycles c⟩]
  else (expand v).flatMap (symbolSegments c) ++ [⟨.letterSpace, letterCycles c⟩]

/-- `timeline(msg)` (R178), up to IDLE. -/
def timeline (c : Config) (msg : List Byte) : List Segment :=
  ⟨.warmup, c.warmupCycles⟩ :: msg.flatMap fun ch => codeSegments c (codeOf c ch)

/-- The phase of each cycle of a list of segments, in order (R14). -/
def phaseTrace (segs : List Segment) : List Phase := segs.flatMap fun g => List.replicate g.cycles g.phase

/-- `units(c)` (R179) of a character whose code word is `v`: 6 for a space, else 2 u a Dit, 4 u a Dah and 3 u. -/
def codeUnits (v : CodeWord) : Nat :=
  if v.toNat ≤ 1 then 6 else 2 * (expand v).count .dit + 4 * (expand v).count .dah + 3

/-- `B` (R179): the number of busy cycles of the transmission of `msg`. -/
def busyCycles (c : Config) (msg : List Byte) : Nat :=
  c.warmupCycles + c.ditCycles * (msg.map fun ch => codeUnits (codeOf c ch)).sum

end Sys2Proof.Machine
end

