-- ==== Sys2Proof/Safety.lean ====
section
/-! DEFINITION. What holds of every state reachable from reset (spec/10_state.md rules R47, R31, R71) and when two
states differ only in what no output can show (rules R48, R71). -/

namespace Sys2Proof.Machine

/-- R47 (a): `phase ∈ {0..5}`. -/
abbrev PhaseLegal (s : State) : Prop := s.phase ≠ .unused6 ∧ s.phase ≠ .unused7

/-- R47 (b) as the machine keeps it: `idx ≤ len` while busy, and `idx` and `len` at most MSG_MAX always.  In IDLE a
CLEAR after a transmission leaves `idx` above `len` (R203 does not write `idx`; 95_test_vectors.md P3 ends with
`idx = 2`, `len = 0`), so R47 (b) as written does not hold there (notes/assumptions/12.md). -/
abbrev IndexBounds (s : State) : Prop :=
  s.len.toNat ≤ s.cfg.msgMax ∧ s.idx.toNat ≤ s.cfg.msgMax ∧ (s.phase ≠ .idle → s.idx.toNat ≤ s.len.toNat)

/-- R47 (c): while a symbol is emitted, `sr ≥ 1` and `idx < len`. -/
abbrev SymbolInProgress (s : State) : Prop :=
  (s.phase = .mark ∨ s.phase = .elemGap) → 1 ≤ s.sr.toNat ∧ s.idx.toNat < s.len.toNat

/-- R47 (d): in CHAR_SPACE and LETTER_SPACE, `idx < len`. -/
abbrev SpaceInProgress (s : State) : Prop :=
  (s.phase = .charSpace ∨ s.phase = .letterSpace) → s.idx.toNat < s.len.toNat

/-- R47 (e): `timer ≤ dur - 1` in a segment. -/
abbrev TimerInSegment (s : State) : Prop := ∀ d ∈ dur s.cfg s.phase s.sym, s.timer ≤ d - 1

/-- R47 (f): `gate_out = busy`. -/
abbrev GateIsBusy (s : State) : Prop := s.gateOut = s.busy

/-- R31: the values of `sr` and `timer` fit the registers' CW and TIMER_W bits. -/
abbrev WidthsKept (s : State) : Prop := s.sr.toNat < 2 ^ s.cfg.cw ∧ s.timer < 2 ^ s.cfg.timerW

/-- MB is canonical and inside its MSG_MAX entries (R60 (a)). -/
abbrev BufferOk (s : State) : Prop := Memory.wf s.mb = true ∧ Memory.within s.cfg.msgMax s.mb = true

/-- R71: every entry below `len` has been written. -/
abbrev MessageWritten (s : State) : Prop := ∀ i, i < s.len.toNat → (Memory.read s.mb i).isSome = true

/-- The invariant of the machine: an admitted configuration, R47 (a) to (f), the register widths of R31 and the
written message of R71. -/
abbrev Inv (s : State) : Prop :=
  s.cfg.wellFormed = true ∧ PhaseLegal s ∧ IndexBounds s ∧ SymbolInProgress s ∧ SpaceInProgress s
    ∧ TimerInSegment s ∧ GateIsBusy s ∧ WidthsKept s ∧ BufferOk s ∧ MessageWritten s

/-- The two states agree on everything an output now or later can depend on: the configuration, the coming inputs,
`phase`, `len`, `ovf`, `ill` and the entries below `len`; `idx` and `timer` while busy; `sr` while a symbol is
emitted.  They may differ in MB at `len` and above (R71), in `idx`, `timer` and `sr` between transmissions
(R48), and in `sym` everywhere (R37). -/
abbrev SameVisible (s t : State) : Prop :=
  s.cfg = t.cfg ∧ s.inputs = t.inputs ∧ s.phase = t.phase ∧ s.len = t.len ∧ s.ovf = t.ovf ∧ s.ill = t.ill
    ∧ (∀ i, i < s.len.toNat → Memory.read s.mb i = Memory.read t.mb i)
    ∧ (s.phase ≠ .idle → s.idx = t.idx ∧ s.timer = t.timer)
    ∧ (s.phase = .mark ∨ s.phase = .elemGap → s.sr = t.sr)

/-- No reset at the coming edges 0 to `n`. -/
abbrev NoResetThrough (s : State) (n : Nat) : Prop := ∀ k, k ≤ n → (s.inputAt k).rst = false

/-- The coming edge accepts an unsuppressed SEND (R204). -/
abbrev AcceptsSend (s : State) : Prop :=
  s.accepts = true ∧ decodeCommand s.sampled.cmd = .send ∧ s.sampled.suppress = false

end Sys2Proof.Machine
end

