-- ==== Sys2Proof/Certificates/Slice0/Obligations.lean ====
section
/-! DEFINITION. The statements for the provers, in the order of the spec's files.  Every statement about a
configuration holds for every configuration, or for every one the model admits. -/

open Sys2Proof Sys2Proof.Machine

/-! ## Configuration (00_scope.md, 40_code_table.md) -/

/-- R111 (WF1 to WF5) and R6, R9: the admitted configurations are exactly those with the legal ranges, the TIMER_W
condition, lock-step tables, nonzero code words that fit CW bits, and distinct alphabet entries outside
0x61..0x7A. -/
def Obligations.AdmittedConfigurations : Prop :=
  ∀ c : Config, c.wellFormed = true ↔
    (1 ≤ c.n ∧ c.n ≤ 256) ∧ (2 ≤ c.cw ∧ c.cw ≤ 16) ∧ 1 ≤ c.ditCycles ∧ 1 ≤ c.warmupCycles
    ∧ (1 ≤ c.msgMax ∧ c.msgMax ≤ 255) ∧ 0 < c.clkHz ∧ 0 < c.wpm
    ∧ max (3 * c.ditCycles) c.warmupCycles - 1 < 2 ^ c.timerW
    ∧ c.alphabet.length = c.n ∧ c.codes.length = c.n
    ∧ (∀ v ∈ c.codes, v ≠ 0#16) ∧ (∀ v ∈ c.codes, v.toNat < 2 ^ c.cw)
    ∧ c.alphabet.Nodup ∧ (∀ a ∈ c.alphabet, ¬ (0x61 ≤ a.toNat ∧ a.toNat ≤ 0x7A))

/-- Every step over an ill-formed configuration, a reset edge too, answers the refusal `illFormedConfig`, and no step over
an admitted one is refused.  R9 says that a model refuses such a configuration and gives it no semantics; that the
refusal is the answer of every step is the model's rendering of it (notes/assumptions/17.md). -/
def Obligations.RefusesExactlyIllFormedConfigurations : Prop :=
  ∀ s : Machine.State, (s.cfg.wellFormed = false → step s = .refused .illFormedConfig)
    ∧ (∀ r, step s = .refused r → s.cfg.wellFormed = false)

/-- R6: no step changes the configuration. -/
def Obligations.StepKeepsConfiguration : Prop :=
  ∀ s t : Machine.State, step s = .next t → t.cfg = s.cfg

/-! ## Encodings (30_encoding.md) -/

/-- Decoding the encoded word of a well-formed instruction gives it back, in the word's own format and as a row
of the opcode table (the model's reading of it, CW rows at CW = 8: notes/assumptions/20.md). -/
def Obligations.DecodeOfEncode : Prop :=
  ∀ i : Instr, i.wellFormed = true →
    decodeFormat i.format (encode i) = i
    ∧ (i.format = .cmd16 → decodeTableWord 16 (encode i).toNat = some i)
    ∧ (i.format = .cw → i.fitsCw 8 = true → decodeTableWord 8 (encode i).toNat = some i)

/-- Every word of either format decodes to a well-formed instruction of that format, whose encoding is the word. -/
def Obligations.EncodeOfDecode : Prop :=
  ∀ (f : Format) (w : BitVec 16),
    encode (decodeFormat f w) = w ∧ (decodeFormat f w).wellFormed = true ∧ (decodeFormat f w).format = f

/-- R82: the rows of the command decoder by match and mask, which do not overlap. -/
def Obligations.CommandWordDecodesByItsRow : Prop :=
  ∀ w : CmdWord,
    (w &&& 0xFFFF#16 = 0x0000#16 → decodeCommand w = .nop)
    ∧ (w &&& 0xFF00#16 = 0x1000#16 → decodeCommand w = .append (w.setWidth 8))
    ∧ (w &&& 0xFFFF#16 = 0x2000#16 → decodeCommand w = .clear)
    ∧ (w &&& 0xFFFF#16 = 0x3000#16 → decodeCommand w = .send)
    ∧ (w &&& 0xFFFF#16 ≠ 0x0000#16 → w &&& 0xFF00#16 ≠ 0x1000#16 → w &&& 0xFFFF#16 ≠ 0x2000#16 →
        w &&& 0xFFFF#16 ≠ 0x3000#16 → decodeCommand w = .illegal w)
    ∧ ¬ (w &&& 0xFFFF#16 = 0x0000#16 ∧ w &&& 0xFF00#16 = 0x1000#16)
    ∧ ¬ (w &&& 0xFF00#16 = 0x1000#16 ∧ w &&& 0xFFFF#16 = 0x2000#16)
    ∧ ¬ (w &&& 0xFF00#16 = 0x1000#16 ∧ w &&& 0xFFFF#16 = 0x3000#16)

/-- R83: the illegal words are the four classes of the rule's list. -/
def Obligations.IllegalWordsAreTheFourClasses : Prop :=
  ∀ w : CmdWord, decodeCommand w = .illegal w ↔
    (w.extractLsb' 12 4 = 0x0#4 ∧ w.extractLsb' 0 12 ≠ 0#12)
    ∨ (w.extractLsb' 12 4 = 0x1#4 ∧ w.extractLsb' 8 4 ≠ 0x0#4)
    ∨ ((w.extractLsb' 12 4 = 0x2#4 ∨ w.extractLsb' 12 4 = 0x3#4) ∧ w.extractLsb' 0 12 ≠ 0#12)
    ∨ 4 ≤ (w.extractLsb' 12 4).toNat

/-- R88: the four step kinds of a code word, each with the remainder v >> 1. -/
def Obligations.CodeWordDecodesByItsStepKind : Prop :=
  ∀ v : CodeWord,
    (decodeCodeWord v = .cwInvalid ↔ v.toNat = 0)
    ∧ (decodeCodeWord v = .cwEnd ↔ v.toNat = 1)
    ∧ (∀ r, decodeCodeWord v = .cwDit r ↔ 2 ≤ v.toNat ∧ v.toNat % 2 = 0 ∧ r.toNat = v.toNat / 2)
    ∧ (∀ r, decodeCodeWord v = .cwDah r ↔ 2 ≤ v.toNat ∧ v.toNat % 2 = 1 ∧ r.toNat = v.toNat / 2)

/-- Words written out bit by bit from the encodings of R82 and R88 decode to the instructions they stand for.  That a word
of 16 bits is a command word and one of 8 bits a code word is the model's reading of the opcode table
(notes/assumptions/20.md). -/
def Obligations.WrittenOutWordsDecode : Prop :=
  decodeTableWord 16 0b0000000000000000 = some .nop
  ∧ decodeTableWord 16 0b0001000001010011 = some (.append 0x53#8)
  ∧ decodeTableWord 16 0b0010000000000000 = some .clear
  ∧ decodeTableWord 16 0b0011000000000000 = some .send
  ∧ decodeTableWord 16 0b0001000101010011 = some (.illegal 0x1153#16)
  ∧ decodeTableWord 8 0b00000000 = some .cwInvalid
  ∧ decodeTableWord 8 0b00000001 = some .cwEnd
  ∧ decodeTableWord 8 0b11001000 = some (.cwDit 0b1100100#15)
  ∧ decodeTableWord 8 0b00001111 = some (.cwDah 0b0000111#15)

/-! ## Code table and lookup (40_code_table.md) -/

/-- R112: UPCASE maps 0x61..0x7A down by 0x20, leaves every other character, and is idempotent. -/
def Obligations.UpcaseMapsLowercaseOnly : Prop :=
  ∀ c : Byte,
    (0x61 ≤ c.toNat ∧ c.toNat ≤ 0x7A → (upcase c).toNat = c.toNat - 0x20)
    ∧ (¬ (0x61 ≤ c.toNat ∧ c.toNat ≤ 0x7A) → upcase c = c)
    ∧ upcase (upcase c) = upcase c

/-- R113: LOOKUP answers the code word of the lowest matching index, 1 for a character not in ALPHABET, and 1 for
space in a conforming table; in an admitted configuration at most one index matches and the answer is never 0. -/
def Obligations.LookupIsLowestIndexElseSpace : Prop :=
  ∀ (cfg : Config) (c : Byte),
    (∀ (i : Nat) (v : CodeWord), cfg.alphabet[i]? = some c → (∀ j, j < i → cfg.alphabet[j]? ≠ some c) →
        cfg.codes[i]? = some v → lookup cfg c = v)
    ∧ (c ∉ cfg.alphabet → lookup cfg c = 1#16)
    ∧ (cfg.conformsAtSpace = true → lookup cfg 0x20#8 = 1#16)
    ∧ (cfg.wellFormed = true → lookup cfg c ≠ 0#16)
    ∧ (cfg.wellFormed = true → ∀ i j : Nat, cfg.alphabet[i]? = some c → cfg.alphabet[j]? = some c → i = j)

/-- R118: in a table that conforms to R116 at index 0, a character not in the alphabet has the code word of space. -/
def Obligations.UnknownCharacterHasTheCodeOfSpace : Prop :=
  ∀ (cfg : Config) (c : Byte), cfg.conformsAtSpace = true → upcase c ∉ cfg.alphabet →
    lookup cfg (upcase c) = 1#16 ∧ lookup cfg 0x20#8 = 1#16

/-- R111 (WF2, WF3) carried to the unpacker: in an admitted configuration every character of a message has a nonzero
code word of CW bits, so a character start never decodes CW.INVALID. -/
def Obligations.EveryCharacterHasAnAdmittedCode : Prop :=
  ∀ (cfg : Config) (c : Byte), cfg.wellFormed = true →
    1 ≤ (codeOf cfg c).toNat ∧ (codeOf cfg c).toNat < 2 ^ cfg.cw
    ∧ decodeCodeWord (codeOf cfg c) ≠ .cwInvalid ∧ (decodeCodeWord (codeOf cfg c)).fitsCw cfg.cw = true

/-! ## Symbol encoder (41_symbol_encoder.md) -/

/-- R131: EXPAND gives no symbol for 0 and 1, and for v ≥ 2 the bits below the highest set bit, bit 0 first. -/
def Obligations.ExpandIsTheBitsBelowTheTerminator : Prop :=
  expand 0#16 = [] ∧ expand 1#16 = [] ∧
  ∀ v : CodeWord, 2 ≤ v.toNat →
    (expand v).length = Nat.log2 v.toNat
    ∧ ∀ i, i < Nat.log2 v.toNat → (expand v)[i]? = some (if v.getLsbD i then .dah else .dit)

/-- R86: COLLAPSE is 2^L + Σ s_i 2^i, and its value fits CW bits exactly when L ≤ CW - 1. -/
def Obligations.CollapseIsTheWeightedSum : Prop :=
  (∀ ss : List Symbol,
    collapse ss = 2 ^ ss.length
      + ((List.range ss.length).map fun i => (if ss[i]? = some .dah then 2 ^ i else 0)).sum)
  ∧ (∀ v : CodeWord, 2 ≤ v.toNat → collapse (expand v) = v.toNat)
  ∧ collapse [] = 1
  ∧ (∀ (ss : List Symbol) (cw : Nat), 1 ≤ cw → (collapse ss < 2 ^ cw ↔ ss.length ≤ cw - 1))

/-- R136 and its converse: a code word v ≥ 2 expands to a non-empty sequence that collapses back to v, and every
non-empty sequence that fits 16 bits collapses to a code word that expands back to it. -/
def Obligations.ExpandAndCollapseAreInverse : Prop :=
  expand 1#16 = []
  ∧ (∀ v : CodeWord, 2 ≤ v.toNat → expand v ≠ [] ∧ collapse (expand v) = v.toNat)
  ∧ (∀ ss : List Symbol, ss ≠ [] → ss.length ≤ 15 → expand (BitVec.ofNat 16 (collapse ss)) = ss)

/-- R135: from a code word v ≥ 1, k shifts of the unpacker give 1 exactly when k = ⌊log2 v⌋, which is at most CW - 1 where
v has CW bits; no number of shifts takes 0 to 1. -/
def Obligations.ShiftingReachesTheSentinel : Prop :=
  (∀ v : CodeWord, 1 ≤ v.toNat →
    (∀ k : Nat, shiftRight1^[k] v = 1#16 ↔ k = Nat.log2 v.toNat)
    ∧ (∀ cw, v.toNat < 2 ^ cw → Nat.log2 v.toNat ≤ cw - 1))
  ∧ ∀ k : Nat, shiftRight1^[k] 0#16 ≠ 1#16

/-- R132: the symbol step of a code word v ≥ 2 puts v[0] in `sym` and v >> 1 in `sr` and enters a MARK of 1 u or 3 u;
`sr ≥ 1` afterwards, and its top bit is 0.  Everything else is unchanged. -/
def Obligations.SymbolStepEmitsTheLowBit : Prop :=
  ∀ (v : CodeWord) (s : Machine.State), 2 ≤ v.toNat →
    exec (decodeCodeWord v) s = .next { s with
      sym := if v.getLsbD 0 then .dah else .dit
      sr := v >>> 1
      phase := .mark
      timer := s.cfg.ditCycles * (if v.getLsbD 0 then 3 else 1) - 1 }
    ∧ 1 ≤ (v >>> 1).toNat
    ∧ (v.toNat < 2 ^ s.cfg.cw → (v >>> 1).getLsbD (s.cfg.cw - 1) = false)

/-- R132, by instruction: CW.DIT and CW.DAH complete in every state, for every remainder.  R132 has v ≥ 2, which is every
remainder but 0; for the remainder 0, which no decoded instruction has, the result is the model's choice
(notes/assumptions/18.md). -/
def Obligations.DitAndDahComplete : Prop :=
  ∀ (r : BitVec 15) (s : Machine.State),
    exec (.cwDit r) s = .next { s with
      sym := .dit, sr := r.setWidth 16, phase := .mark, timer := s.cfg.ditCycles - 1 }
    ∧ exec (.cwDah r) s = .next { s with
      sym := .dah, sr := r.setWidth 16, phase := .mark, timer := s.cfg.ditCycles * 3 - 1 }

/-- R133: END at the end of an ELEM_GAP enters LETTER_SPACE, and at a character start (the end of WARMUP or
LETTER_SPACE) enters CHAR_SPACE, 3 u each; `sr`, `sym` and everything else are unchanged. -/
def Obligations.EndOfCodeEntersTheHold : Prop :=
  ∀ s : Machine.State,
    (s.phase = .elemGap →
      exec .cwEnd s = .next { s with phase := .letterSpace, timer := 3 * s.cfg.ditCycles - 1 })
    ∧ (s.phase = .warmup ∨ s.phase = .letterSpace →
      exec .cwEnd s = .next { s with phase := .charSpace, timer := 3 * s.cfg.ditCycles - 1 })

/-- R134: INVALID behaves as END at the same place.  In an admitted configuration no table entry is 0 and a lookup miss
is 1, so no character start decodes INVALID; a symbol step never leaves 0 in `sr`; and in no state that meets the
invariant does the end of an ELEM_GAP decode INVALID. -/
def Obligations.InvalidBehavesAsEndAndIsUnreachable : Prop :=
  (∀ s : Machine.State,
    (s.phase = .elemGap →
      exec .cwInvalid s = .next { s with phase := .letterSpace, timer := 3 * s.cfg.ditCycles - 1 })
    ∧ (s.phase = .warmup ∨ s.phase = .letterSpace →
      exec .cwInvalid s = .next { s with phase := .charSpace, timer := 3 * s.cfg.ditCycles - 1 })
    ∧ exec .cwInvalid s = exec .cwEnd s)
  ∧ (∀ (cfg : Config) (c : Byte), cfg.wellFormed = true →
    0#16 ∉ cfg.codes ∧ (c ∉ cfg.alphabet → lookup cfg c = 1#16) ∧ decodeCodeWord (codeOf cfg c) ≠ .cwInvalid)
  ∧ (∀ (v : CodeWord) (s t : Machine.State), 2 ≤ v.toNat → exec (decodeCodeWord v) s = .next t → 1 ≤ t.sr.toNat)
  ∧ (∀ s : Machine.State, Inv s → s.phase = .elemGap → decodeCodeWord s.sr ≠ .cwInvalid)

/-! ## Keying driver (42_keying_driver.md) -/

/-- R151, R160: the length of each segment, and the exact ratios of the durations. -/
def Obligations.SegmentLengthsAndRatios : Prop :=
  ∀ (c : Config) (sym : Symbol),
    dur c .warmup sym = some c.warmupCycles
    ∧ dur c .mark .dit = some c.ditCycles
    ∧ dur c .mark .dah = some (3 * c.ditCycles)
    ∧ dur c .elemGap sym = some c.ditCycles
    ∧ dur c .charSpace sym = some (3 * c.ditCycles)
    ∧ dur c .letterSpace sym = some (3 * c.ditCycles)
    ∧ dur c .idle sym = none
    ∧ markCycles c .dah = 3 * markCycles c .dit
    ∧ letterCycles c = markCycles c .dah
    ∧ wordUnits * c.ditCycles = 7 * markCycles c .dit

/-- R153: `enter(p, d)` makes phase p hold for exactly d cycles, the timer counting from d - 1 down to 0, and the edge
that ends the segment is the d-th one after. -/
def Obligations.SegmentHoldsForItsLength : Prop :=
  ∀ (s : Machine.State) (p : Phase) (d : Nat), s.cfg.wellFormed = true → p.gate = true → 1 ≤ d →
    NoResetThrough s (d - 1) →
    (∀ k, k < d → ∃ t, run k (enter p d s) = .next t ∧ t.phase = p ∧ t.timer = d - 1 - k)
    ∧ (∀ t, run (d - 1) (enter p d s) = .next t → step t = mapNext dropInput (endOfSegment t))

/-- R154: the end of a segment begins the next one at its full length, or returns to IDLE; no cycle lies between. -/
def Obligations.SegmentsAbut : Prop :=
  ∀ s t : Machine.State, s.cfg.wellFormed = true → s.phase.gate = true → endOfSegment s = .next t →
    (t.phase = .idle ∧ t.timer = 0) ∨ (t.phase.gate = true ∧ dur t.cfg t.phase t.sym = some (t.timer + 1))

/-- R157: the gate rises exactly at the edge that accepts an unsuppressed SEND, and falls exactly at a reset edge or
where the last segment of the message ends. -/
def Obligations.GateRisesAtSendAndFallsAtTheEnd : Prop :=
  ∀ s t : Machine.State, step s = .next t →
    ((s.gateOut = false ∧ t.gateOut = true) ↔ AcceptsSend s)
    ∧ ((s.gateOut = true ∧ t.gateOut = false) ↔
        s.gateOut = true ∧ (s.sampled.rst = true ∨ (s.timer = 0 ∧
          ((s.phase = .warmup ∧ s.len = 0#8) ∨ (s.phase = .letterSpace ∧ s.idx + 1#8 = s.len)))))

/-! ## Message transmitter (43_message_transmitter.md) -/

/-- R170, R154, R177: the four branches of one edge: reset; in IDLE an offered command; in a segment the countdown or its
end; in an unused phase IDLE and nothing else.  The coming edge's inputs are then used up. -/
def Obligations.StepTakesOneOfFourBranches : Prop :=
  ∀ s : Machine.State, s.cfg.wellFormed = true →
    (s.sampled.rst = true → step s = .next (dropInput (resetRegisters s)))
    ∧ (s.sampled.rst = false → s.phase = .idle →
        step s = if s.sampled.cmdValid then mapNext dropInput (exec (decodeCommand s.sampled.cmd) s)
          else .next (dropInput s))
    ∧ (s.sampled.rst = false → s.phase.gate = true →
        step s = if s.timer ≠ 0 then .next { s with timer := s.timer - 1, inputs := s.inputs.drop 1 }
          else mapNext dropInput (endOfSegment s))
    ∧ (s.sampled.rst = false → s.phase = .unused6 ∨ s.phase = .unused7 →
        step s = .next { s with phase := .idle, inputs := s.inputs.drop 1 })

/-- A step runs the decoded instruction: an accepted command word's; at the end of an ELEM_GAP the one of `sr`; and at a
character start the one of the character's code word, with `idx` already at that character. -/
def Obligations.StepRunsTheDecodedInstruction : Prop :=
  ∀ s : Machine.State, s.cfg.wellFormed = true →
    (s.accepts = true → step s = mapNext dropInput (exec (decodeCommand s.sampled.cmd) s))
    ∧ (s.sampled.rst = false → s.timer = 0 → s.phase = .elemGap →
        step s = mapNext dropInput (exec (decodeCodeWord s.sr) s))
    ∧ (∀ (i : BitVec 8) (c : Byte), s.sampled.rst = false → s.timer = 0 →
        (s.phase = .warmup ∧ i = 0#8 ∨ s.phase = .letterSpace ∧ i = s.idx + 1#8) →
        i ≠ s.len → i.toNat < s.cfg.msgMax → Memory.read s.mb i.toNat = some c →
        step s = mapNext dropInput (exec (decodeCodeWord (codeOf s.cfg c)) { s with idx := i }))

/-- R171: `start_char(i)`, called at the end of WARMUP or LETTER_SPACE: the end of the message, a space, or the first
symbol of the character; everything not named is unchanged.  In a state that meets the invariant, a character below
`len` has been written. -/
def Obligations.StartCharEndsSpacesOrEmits : Prop :=
  ∀ (s : Machine.State) (i : BitVec 8), s.phase = .warmup ∨ s.phase = .letterSpace →
    (i = s.len → startChar i s = .next { s with idx := i, phase := .idle, timer := 0 })
    ∧ (∀ c : Byte, i ≠ s.len → i.toNat < s.cfg.msgMax → Memory.read s.mb i.toNat = some c →
        (lookup s.cfg (upcase c) = 1#16 ∨ lookup s.cfg (upcase c) = 0#16 →
          startChar i s = .next { s with
            idx := i, phase := .charSpace, timer := 3 * s.cfg.ditCycles - 1 })
        ∧ (∀ v : CodeWord, lookup s.cfg (upcase c) = v → 2 ≤ v.toNat →
          startChar i s = .next { s with
            idx := i
            sym := if v.getLsbD 0 then .dah else .dit
            sr := v >>> 1
            phase := .mark
            timer := s.cfg.ditCycles * (if v.getLsbD 0 then 3 else 1) - 1 }))
    ∧ (Inv s → i.toNat < s.len.toNat → i.toNat < s.cfg.msgMax ∧ ∃ c, Memory.read s.mb i.toNat = some c)

/-- R173, R175: the edge that ends a MARK enters ELEM_GAP for 1 u, and the edge that ends CHAR_SPACE enters LETTER_SPACE
for 3 u; `sr`, `sym` and everything else are unchanged. -/
def Obligations.EndOfMarkAndOfCharSpace : Prop :=
  ∀ s : Machine.State, s.cfg.wellFormed = true → s.sampled.rst = false → s.timer = 0 →
    (s.phase = .mark →
      step s = .next { s with phase := .elemGap, timer := s.cfg.ditCycles - 1, inputs := s.inputs.drop 1 })
    ∧ (s.phase = .charSpace →
      step s = .next { s with
        phase := .letterSpace, timer := 3 * s.cfg.ditCycles - 1, inputs := s.inputs.drop 1 })

/-- R174: the edge that ends an ELEM_GAP enters LETTER_SPACE when no symbol remains, and otherwise the MARK of the next
symbol, which is `sr[0]`. -/
def Obligations.EndOfGapEmitsTheNextSymbolOrEndsTheCharacter : Prop :=
  ∀ s : Machine.State, s.cfg.wellFormed = true → s.sampled.rst = false → s.phase = .elemGap → s.timer = 0 →
    (s.sr = 1#16 ∨ s.sr = 0#16 →
      step s = .next { s with
        phase := .letterSpace, timer := 3 * s.cfg.ditCycles - 1, inputs := s.inputs.drop 1 })
    ∧ (2 ≤ s.sr.toNat →
      step s = .next { s with
        sym := if s.sr.getLsbD 0 then .dah else .dit
        sr := s.sr >>> 1
        phase := .mark
        timer := s.cfg.ditCycles * (if s.sr.getLsbD 0 then 3 else 1) - 1
        inputs := s.inputs.drop 1 })

/-- R172, R176: the edge that ends WARMUP runs `start_char(0)`, the edge that ends LETTER_SPACE runs
`start_char(idx + 1)`, and `idx + 1` does not overflow there in a state that meets the invariant. -/
def Obligations.EndOfWarmupAndOfLetterSpaceStartACharacter : Prop :=
  ∀ s : Machine.State,
    (s.cfg.wellFormed = true → s.sampled.rst = false → s.timer = 0 → s.phase = .warmup →
      step s = mapNext dropInput (startChar 0#8 s))
    ∧ (s.cfg.wellFormed = true → s.sampled.rst = false → s.timer = 0 → s.phase = .letterSpace →
      step s = mapNext dropInput (startChar (s.idx + 1#8) s))
    ∧ (Inv s → s.phase = .letterSpace →
      (s.idx + 1#8).toNat = s.idx.toNat + 1 ∧ s.idx.toNat + 1 ≤ s.len.toNat)

/-- R178: after an unsuppressed SEND is accepted, the cycles go through exactly the phases of `timeline(msg)`, with the
gate and the key of each phase, and then IDLE. -/
def Obligations.TransmissionFollowsTheTimeline : Prop :=
  ∀ s : Machine.State, Inv s → AcceptsSend s →
    NoResetThrough s (phaseTrace (timeline s.cfg (message s))).length →
    (∀ (k : Nat) (p : Phase), (phaseTrace (timeline s.cfg (message s)))[k]? = some p →
      ∃ t, run (k + 1) s = .next t ∧ t.phase = p ∧ t.gateOut = true ∧ t.keyOut = decide (p = .mark))
    ∧ ∃ t, run ((phaseTrace (timeline s.cfg (message s))).length + 1) s = .next t ∧ t.phase = .idle

/-- R179: after an unsuppressed SEND is accepted, `busy` and `gate_out` are 1 for exactly B cycles, and `cmd_ready` is 1
again in the cycle after them. -/
def Obligations.TransmissionIsBusyForExactlyB : Prop :=
  ∀ s : Machine.State, Inv s → AcceptsSend s → NoResetThrough s (busyCycles s.cfg (message s)) →
    (∀ k, k < busyCycles s.cfg (message s) →
      ∃ t, run (k + 1) s = .next t ∧ t.busy = true ∧ t.gateOut = true ∧ t.cmdReady = false)
    ∧ ∃ t, run (busyCycles s.cfg (message s) + 1) s = .next t ∧ t.busy = false ∧ t.gateOut = false
        ∧ t.cmdReady = true

/-- R181: a SEND of the empty message raises the gate for exactly WARMUP_CYCLES cycles, keys nothing and returns to
IDLE. -/
def Obligations.EmptyMessageHoldsTheGateForTheWarmup : Prop :=
  ∀ s : Machine.State, s.cfg.wellFormed = true → s.len = 0#8 → AcceptsSend s →
    NoResetThrough s s.cfg.warmupCycles →
    (∀ k, k < s.cfg.warmupCycles → ∃ t, run (k + 1) s = .next t ∧ t.gateOut = true ∧ t.keyOut = false)
    ∧ ∃ t, run (s.cfg.warmupCycles + 1) s = .next t ∧ t.phase = .idle ∧ t.gateOut = false ∧ t.keyOut = false

/-- R182, R207: while busy and without reset, an edge reads neither `cmd_valid` nor `cmd` nor `suppress`. -/
def Obligations.BusyEdgeIgnoresTheCommandPort : Prop :=
  ∀ (s : Machine.State) (a b : Inputs) (later : List Inputs), s.phase ≠ .idle → a.rst = false → b.rst = false →
    step { s with inputs := a :: later } = step { s with inputs := b :: later }

/-- R183 (its first sentence), R35, R66: an edge while busy and without reset writes neither `len`, MB, `ovf` nor
`ill`. -/
def Obligations.BusyEdgeKeepsMessageAndFlags : Prop :=
  ∀ s t : Machine.State, s.phase ≠ .idle → s.sampled.rst = false → step s = .next t →
    t.len = s.len ∧ t.mb = s.mb ∧ t.ovf = s.ovf ∧ t.ill = s.ill ∧ t.cfg = s.cfg

/-- R183: two unsuppressed SENDs of the same message under the same configuration, from any two idle states the
invariant admits, show the same phase, gate and key in every cycle, and leave IDLE, gate and key 0, and the
message and the flags as they were. -/
def Obligations.RepeatedSendsAreIdentical : Prop :=
  ∀ s t : Machine.State, Inv s → Inv t → s.cfg = t.cfg → message s = message t → AcceptsSend s → AcceptsSend t →
    NoResetThrough s (busyCycles s.cfg (message s)) → NoResetThrough t (busyCycles s.cfg (message s)) →
    (∀ k, k ≤ busyCycles s.cfg (message s) →
      ∃ s' t', run (k + 1) s = .next s' ∧ run (k + 1) t = .next t' ∧ s'.phase = t'.phase
        ∧ s'.gateOut = t'.gateOut ∧ s'.keyOut = t'.keyOut)
    ∧ ∃ s', run (busyCycles s.cfg (message s) + 1) s = .next s' ∧ s'.phase = .idle ∧ s'.gateOut = false
        ∧ s'.keyOut = false ∧ s'.len = s.len ∧ s'.mb = s.mb ∧ s'.ovf = s.ovf ∧ s'.ill = s.ill

/-! ## Host commands (44_host_commands.md) -/

/-- R200: a word is accepted exactly without reset, with `cmd_valid` and in IDLE, and its whole effect is in the state
after that edge; at an edge that accepts no word, the step is as if no word were offered. -/
def Obligations.HandshakeDecidesAcceptance : Prop :=
  ∀ s : Machine.State, s.cfg.wellFormed = true →
    (s.accepts = true ↔ s.sampled.rst = false ∧ s.sampled.cmdValid = true ∧ s.phase = .idle)
    ∧ (s.accepts = true → step s = mapNext dropInput (exec (decodeCommand s.sampled.cmd) s))
    ∧ (s.accepts = false → ∀ w : CmdWord,
        step { s with inputs := { s.sampled with cmdValid := false, cmd := w } :: s.inputs.drop 1 } = step s)

/-- R201: NOP changes nothing. -/
def Obligations.NopChangesNothing : Prop := ∀ s : Machine.State, exec .nop s = .next s

/-- R202: APPEND stores the raw character at `MB[len]` and increments `len`, every other entry and field unchanged; with
the buffer full it only sets `ovf`.  (`len` is 8 bits wide and MSG_MAX ≤ 255, so the increment does not wrap.) -/
def Obligations.AppendStoresAtLenOrDrops : Prop :=
  ∀ (c : Byte) (s : Machine.State), s.cfg.wellFormed = true →
    (s.len.toNat < s.cfg.msgMax →
      ∃ t, exec (.append c) s = .next t ∧ t.len.toNat = s.len.toNat + 1
        ∧ Memory.read t.mb s.len.toNat = some c
        ∧ (∀ a, a ≠ s.len.toNat → Memory.read t.mb a = Memory.read s.mb a)
        ∧ { t with len := s.len, mb := s.mb } = s)
    ∧ (s.cfg.msgMax ≤ s.len.toNat → exec (.append c) s = .next { s with ovf := true })

/-- R203: CLEAR zeroes `len`, `ovf` and `ill`; MB and everything else are unchanged. -/
def Obligations.ClearEmptiesTheBuffer : Prop :=
  ∀ s : Machine.State, exec .clear s = .next { s with len := 0#8, ovf := false, ill := false }

/-- R204: SEND with `suppress = 0` zeroes `idx` and enters WARMUP; everything else is unchanged. -/
def Obligations.SendEntersWarmup : Prop :=
  ∀ s : Machine.State, s.sampled.suppress = false →
    exec .send s = .next { s with idx := 0#8, phase := .warmup, timer := s.cfg.warmupCycles - 1 }

/-- R205: a suppressed SEND is accepted in one edge and changes nothing, so every output is as before. -/
def Obligations.SuppressedSendIsANoOp : Prop :=
  ∀ s : Machine.State, s.sampled.suppress = true →
    exec .send s = .next s
    ∧ (s.cfg.wellFormed = true → s.accepts = true → decodeCommand s.sampled.cmd = .send →
        ∃ t, step s = .next t ∧ t = { s with inputs := s.inputs.drop 1 } ∧ t.gateOut = false ∧ t.keyOut = false
          ∧ t.cmdReady = true)

/-- R206: an illegal word sets `ill` and does nothing else. -/
def Obligations.IllegalSetsIllOnly : Prop :=
  ∀ (w : CmdWord) (s : Machine.State), exec (.illegal w) s = .next { s with ill := true }

/-- R66, R202: APPENDs accepted at consecutive edges put their characters at the end of the message in order. -/
def Obligations.AppendsBuildTheMessageInOrder : Prop :=
  ∀ (cs : List Byte) (s : Machine.State), Inv s → s.phase = .idle → s.len.toNat + cs.length ≤ s.cfg.msgMax →
    (∀ k c, cs[k]? = some c → s.inputAt k = ⟨false, true, 0x1000#16 ||| c.setWidth 16, (s.inputAt k).suppress⟩) →
    ∃ t, run cs.length s = .next t ∧ message t = message s ++ cs ∧ t.len.toNat = s.len.toNat + cs.length
      ∧ t.phase = .idle

/-! ## State and outputs (10_state.md, 20_memory.md) -/

/-- R42: every output but `status` as a function of `phase`; in every state the invariant admits, `busy = gate_out` and
`cmd_ready` is its negation. -/
def Obligations.OutputsAreDecodedFromPhase : Prop :=
  ∀ s : Machine.State,
    (s.gateOut = true ↔ (1 ≤ s.phase.toBits.toNat ∧ s.phase.toBits.toNat ≤ 5))
    ∧ (s.keyOut = true ↔ s.phase.toBits.toNat = 2)
    ∧ s.toneOut = s.keyOut ∧ s.ledOut = s.keyOut
    ∧ (s.busy = true ↔ s.phase.toBits.toNat ≠ 0)
    ∧ (s.cmdReady = true ↔ s.phase.toBits.toNat = 0)
    ∧ (Inv s → s.busy = s.gateOut ∧ s.cmdReady = !s.busy)

/-- R43: the fields of the status word by their bits. -/
def Obligations.StatusWordFields : Prop :=
  ∀ s : Machine.State,
    s.status.getLsbD 0 = s.busy ∧ s.status.getLsbD 1 = s.gateOut ∧ s.status.getLsbD 2 = s.keyOut
    ∧ s.status.getLsbD 3 = s.ovf ∧ s.status.getLsbD 4 = s.ill ∧ s.status.extractLsb' 5 3 = 0#3
    ∧ s.status.extractLsb' 8 8 = s.len

/-- R32: the phase values are the numbers 0 to 7. -/
def Obligations.PhaseValuesAreNumbered : Prop :=
  (∀ p : Phase, Phase.ofBits p.toBits = p) ∧ (∀ b : BitVec 3, (Phase.ofBits b).toBits = b)
  ∧ Phase.idle.toBits = 0#3 ∧ Phase.warmup.toBits = 1#3 ∧ Phase.mark.toBits = 2#3 ∧ Phase.elemGap.toBits = 3#3
  ∧ Phase.charSpace.toBits = 4#3 ∧ Phase.letterSpace.toBits = 5#3

/-- R38, R39, R231: `ovf` after an edge is set by an APPEND accepted on a full buffer, kept otherwise, and cleared only
by reset and an accepted CLEAR; `ill` the same with an accepted illegal word. -/
def Obligations.StickyFlagsAreSetAndClearedOnlySo : Prop :=
  ∀ s t : Machine.State, step s = .next t →
    (t.ovf = true ↔ s.sampled.rst = false ∧ ¬ (s.accepts = true ∧ decodeCommand s.sampled.cmd = .clear)
      ∧ (s.ovf = true ∨ (s.accepts = true ∧ s.cfg.msgMax ≤ s.len.toNat
          ∧ ∃ c, decodeCommand s.sampled.cmd = .append c)))
    ∧ (t.ill = true ↔ s.sampled.rst = false ∧ ¬ (s.accepts = true ∧ decodeCommand s.sampled.cmd = .clear)
      ∧ (s.ill = true ∨ (s.accepts = true ∧ ∃ w, decodeCommand s.sampled.cmd = .illegal w)))

/-- R34: `idx` advances by exactly 1 at the end of a LETTER_SPACE, is loaded with 0 by a SEND, at the start of character 0
and by reset, and is otherwise kept. -/
def Obligations.IdxMovesOnlySo : Prop :=
  ∀ s t : Machine.State, step s = .next t →
    t.idx = if s.sampled.rst = true ∨ AcceptsSend s ∨ (s.phase = .warmup ∧ s.timer = 0) then 0#8
      else if s.phase = .letterSpace ∧ s.timer = 0 then s.idx + 1#8 else s.idx

/-- R36, R37, R130: `sr` and `sym` are written only at an edge that enters a MARK, and by reset. -/
def Obligations.UnpackerRegistersChangeOnlyAtAMark : Prop :=
  ∀ s t : Machine.State, step s = .next t → s.sampled.rst = false →
    (t.phase = .mark ∧ s.timer = 0 ∧ (s.phase = .warmup ∨ s.phase = .elemGap ∨ s.phase = .letterSpace))
    ∨ (t.sr = s.sr ∧ t.sym = s.sym)

/-- R40, R60: MB changes only by the APPEND accepted at `len`, and only at that entry. -/
def Obligations.BufferChangesOnlyByAppendAtLen : Prop :=
  ∀ s t : Machine.State, step s = .next t → ∀ a : Nat,
    Memory.read t.mb a = Memory.read s.mb a
    ∨ (a = s.len.toNat ∧ s.accepts = true ∧ s.len.toNat < s.cfg.msgMax
        ∧ ∃ c, decodeCommand s.sampled.cmd = .append c ∧ Memory.read t.mb a = some c)

/-- Every step from a state that meets the invariant answers a state that meets it.  The invariant is the model's form of
R47, with `idx ≤ len` while busy only (notes/assumptions/12.md), the register widths of R31 and the written message
of R71. -/
def Obligations.StepKeepsTheInvariant : Prop :=
  ∀ s t : Machine.State, Inv s → step s = .next t → Inv t

/-- The state after reset meets the invariant.  That its configuration is an admitted one is the model's choice
(notes/assumptions/2.md), and the invariant is the model's form of R47, with `idx ≤ len` while busy only
(notes/assumptions/12.md). -/
def Obligations.ResetMeetsTheInvariant : Prop := Inv Machine.State.reset

/-- R48, R71: two states the invariant admits that differ only in MB at `len` and above, in `sym`, and between
transmissions in `idx`, `timer` and `sr`, show the same outputs now and step to states that again differ only so. -/
def Obligations.HiddenStateNeverReachesAnOutput : Prop :=
  ∀ s t : Machine.State, Inv s → Inv t → SameVisible s t →
    s.outputs = t.outputs ∧ ∃ s' t', step s = .next s' ∧ step t = .next t' ∧ SameVisible s' t'

/-! ## Exceptions (60_exceptions.md) -/

/-- R230: the block never stops: from every state that meets the invariant, whatever the inputs, a step answers a next
state (neither a fault nor a refusal). -/
def Obligations.NoStepStops : Prop :=
  ∀ (s : Machine.State) (ins : List Inputs), Inv s → ∃ t, step { s with inputs := ins } = .next t

/-! ## Reset and timing (70_reset_and_hazards.md) -/

/-- R260, R261, R262: an edge with `rst = 1` loads every register's reset value in whatever phase, does not write MB,
ignores `cmd_valid`, `cmd` and `suppress`, and in the next cycle every output has its idle value. -/
def Obligations.ResetEdgeLoadsTheResetValues : Prop :=
  ∀ s : Machine.State, s.cfg.wellFormed = true → s.sampled.rst = true →
    (∃ t, step s = .next t
      ∧ t = { s with
          phase := .idle, timer := 0, idx := 0#8, len := 0#8, sr := 1#16, sym := .dit, ovf := false, ill := false
          inputs := s.inputs.drop 1 }
      ∧ t.outputs = ⟨false, false, false, false, false, true, 0x0000#16⟩)
    ∧ (∀ b : Inputs, b.rst = true → step { s with inputs := b :: s.inputs.drop 1 } = step s)

/-- R31, R260: the registers of the state after reset.  That its MB has no entry is the model's choice
(notes/assumptions/5.md). -/
def Obligations.ResetStateHasTheResetValues : Prop :=
  Machine.State.reset.phase = .idle ∧ Machine.State.reset.timer = 0 ∧ Machine.State.reset.idx = 0#8
  ∧ Machine.State.reset.len = 0#8 ∧ Machine.State.reset.sr = 1#16 ∧ Machine.State.reset.sym = .dit
  ∧ Machine.State.reset.ovf = false ∧ Machine.State.reset.ill = false ∧ Machine.State.reset.mb = []
  ∧ Machine.State.reset.status = 0x0000#16

/-- R268: after an accepted NOP, APPEND, CLEAR, illegal word or suppressed SEND, the next edge can accept again, and
no output but `status` changes; after an unsuppressed SEND the block is busy. -/
def Obligations.AcceptedCommandTakesOneEdge : Prop :=
  ∀ s : Machine.State, s.cfg.wellFormed = true → s.accepts = true →
    (decodeCommand s.sampled.cmd ≠ .send ∨ s.sampled.suppress = true →
      ∃ t, step s = .next t ∧ t.cmdReady = true ∧ { t.outputs with status := s.status } = s.outputs)
    ∧ (decodeCommand s.sampled.cmd = .send ∧ s.sampled.suppress = false →
      ∃ t, step s = .next t ∧ t.busy = true ∧ t.gateOut = true)
end

