-- ==== Sys2Proof/Laws/Decode.lean ====
section
/-! SUPPORT. The fields of a word and its bits: the APPEND row by fields is the row by match and mask (R82), and a code
word is its remainder followed by its first symbol's bit (R88). -/

namespace Sys2Proof

theorem appendRow_mask_iff_fields (w : CmdWord) :
    w &&& 0xFF00#16 = 0x1000#16 ↔ opField w = 0x1#4 ∧ subField w = 0x0#4 := by
  constructor
  · intro h
    have hb : ∀ i, (w.getLsbD i && (0xFF00#16).getLsbD i) = (0x1000#16).getLsbD i := by
      intro i
      rw [← BitVec.getLsbD_and, h]
    constructor
    · apply BitVec.eq_of_getLsbD_eq
      intro i hi
      have hm : (0xFF00#16).getLsbD (12 + i) = true := by interval_cases i <;> decide
      have hv : (0x1000#16).getLsbD (12 + i) = (0x1#4).getLsbD i := by interval_cases i <;> decide
      rw [opField, BitVec.getLsbD_extractLsb', ← hv, ← hb (12 + i), hm]
      simp [hi]
    · apply BitVec.eq_of_getLsbD_eq
      intro i hi
      have hm : (0xFF00#16).getLsbD (8 + i) = true := by interval_cases i <;> decide
      have hv : (0x1000#16).getLsbD (8 + i) = (0x0#4).getLsbD i := by interval_cases i <;> decide
      rw [subField, BitVec.getLsbD_extractLsb', ← hv, ← hb (8 + i), hm]
      simp [hi]
  · rintro ⟨h1, h2⟩
    have hop : ∀ i, i < 4 → w.getLsbD (12 + i) = (0x1#4).getLsbD i := by
      intro i hi
      rw [← h1, opField, BitVec.getLsbD_extractLsb']
      simp [hi]
    have hsub : ∀ i, i < 4 → w.getLsbD (8 + i) = (0x0#4).getLsbD i := by
      intro i hi
      rw [← h2, subField, BitVec.getLsbD_extractLsb']
      simp [hi]
    apply BitVec.eq_of_getLsbD_eq
    intro i hi
    rw [BitVec.getLsbD_and]
    rcases Nat.lt_or_ge i 8 with ha | ha
    · have hm : (0xFF00#16).getLsbD i = false := by interval_cases i <;> decide
      have hv : (0x1000#16).getLsbD i = false := by interval_cases i <;> decide
      rw [hm, hv, Bool.and_false]
    · rcases Nat.lt_or_ge i 12 with hb | hb
      · have hs := hsub (i - 8) (by omega)
        rw [show 8 + (i - 8) = i by omega] at hs
        rw [hs]
        interval_cases i <;> decide
      · have ho := hop (i - 12) (by omega)
        rw [show 12 + (i - 12) = i by omega] at ho
        rw [ho]
        interval_cases i <;> decide

/-- A code word is its remainder followed by its first symbol's bit. -/
theorem remainder_append_bit (v : CodeWord) : remainderField v ++ BitVec.ofBool (isDahBit v) = v := by
  unfold isDahBit
  apply BitVec.eq_of_getLsbD_eq
  intro i hi
  rw [BitVec.getLsbD_append, remainderField, BitVec.getLsbD_extractLsb']
  rcases Nat.eq_zero_or_pos i with h | h
  · subst h; simp
  · have h1 : ¬ i < 1 := by omega
    have h2 : i - 1 < 15 := by omega
    have h3 : 1 + (i - 1) = i := by omega
    simp [h1, h2, h3]

end Sys2Proof
end

