-- ==== Sys2Proof/Laws/Memory.lean ====
section
/-! SUPPORT. The message buffer: read after write, and that a write keeps the canonical form. -/

namespace Sys2Proof.Machine

theorem read_write_same (m : Memory) (i : Nat) (v : Byte) : Memory.read (Memory.write m i v) i = some v := by
  induction m with
  | nil => simp [Memory.write, Memory.read]
  | cons cell m ih =>
    obtain ⟨a, b⟩ := cell
    by_cases h1 : i < a
    · simp [Memory.write, Memory.read, h1]
    · by_cases h2 : i = a
      · simp [Memory.write, Memory.read, h2]
      · simp [Memory.write, Memory.read, h1, h2, Ne.symm h2, ih]

theorem read_write_other (m : Memory) {i j : Nat} (v : Byte) (h : j ≠ i) :
    Memory.read (Memory.write m i v) j = Memory.read m j := by
  induction m with
  | nil => simp [Memory.write, Memory.read, Ne.symm h]
  | cons cell m ih =>
    obtain ⟨a, b⟩ := cell
    by_cases h1 : i < a
    · simp [Memory.write, Memory.read, h1, Ne.symm h]
    · by_cases h2 : i = a
      · subst h2
        simp [Memory.write, Memory.read, Ne.symm h]
      · simp [Memory.write, Memory.read, h1, h2, ih]

/-- Canonical means strictly rising: the head is below every later index. -/
theorem wf_cons {a : Nat} {b : Byte} {m : Memory} :
    Memory.wf ((a, b) :: m) = true ↔ (∀ cell ∈ m.head?, a < cell.1) ∧ Memory.wf m = true := by
  cases m with
  | nil => simp [Memory.wf]
  | cons cell m => simp [Memory.wf]

/-- The first index of a written buffer is the written one or the old first one. -/
theorem head_write (m : Memory) (i : Nat) (v : Byte) :
    ∀ cell ∈ (Memory.write m i v).head?, cell.1 = i ∨ ∃ old ∈ m.head?, cell.1 = old.1 := by
  cases m with
  | nil => simp [Memory.write]
  | cons cell m =>
    obtain ⟨a, b⟩ := cell
    simp only [Memory.write]
    split
    · simp
    · split <;> simp

/-- Every write keeps the canonical form. -/
theorem write_wf (m : Memory) (i : Nat) (v : Byte) (h : Memory.wf m = true) : Memory.wf (Memory.write m i v) = true := by
  induction m with
  | nil => simp [Memory.write, Memory.wf]
  | cons cell m ih =>
    obtain ⟨a, b⟩ := cell
    obtain ⟨hhead, htail⟩ := wf_cons.mp h
    simp only [Memory.write]
    split
    · exact wf_cons.mpr ⟨by simpa, h⟩
    · split
      next heq => subst heq; exact wf_cons.mpr ⟨hhead, htail⟩
      next hlt hne =>
        refine wf_cons.mpr ⟨fun cell hcell => ?_, ih htail⟩
        rcases head_write m i v cell hcell with hi | ⟨old, hold, hi⟩
        · omega
        · rw [hi]; exact hhead old hold

/-- A write below `n` keeps every index below `n`. -/
theorem write_within {n : Nat} (m : Memory) (i : Nat) (v : Byte) (h : Memory.within n m = true) (hi : i < n) :
    Memory.within n (Memory.write m i v) = true := by
  induction m with
  | nil => simp [Memory.write, Memory.within, hi]
  | cons cell m ih =>
    obtain ⟨a, b⟩ := cell
    simp only [Memory.within, List.all_cons, Bool.and_eq_true, decide_eq_true_eq] at h ih ⊢
    simp only [Memory.write]
    split
    · simp [hi, h]
    · split
      · simp [hi, h]
      · simpa [h.1] using ih h.2

/-- Nothing is listed below the first index. -/
theorem read_below {m : Memory} {i : Nat} (h : Memory.wf m = true) (hi : ∀ cell ∈ m.head?, i < cell.1) :
    Memory.read m i = none := by
  induction m with
  | nil => rfl
  | cons cell m ih =>
    obtain ⟨a, b⟩ := cell
    obtain ⟨hhead, htail⟩ := wf_cons.mp h
    have ha : i < a := by simpa using hi
    have hne : a ≠ i := by omega
    simp only [Memory.read, hne, if_false]
    exact ih htail fun cell hcell => lt_trans ha (hhead cell hcell)

/-- Two canonical buffers that read alike everywhere are the same list. -/
theorem memory_ext {m n : Memory} (hm : Memory.wf m = true) (hn : Memory.wf n = true)
    (h : ∀ i, Memory.read m i = Memory.read n i) : m = n := by
  induction m generalizing n with
  | nil =>
    cases n with
    | nil => rfl
    | cons cell n => have := h cell.1; simp [Memory.read] at this
  | cons cell m ih =>
    obtain ⟨a, b⟩ := cell
    obtain ⟨hm1, hm2⟩ := wf_cons.mp hm
    cases n with
    | nil => have := h a; simp [Memory.read] at this
    | cons cell' n =>
      obtain ⟨a', b'⟩ := cell'
      obtain ⟨hn1, hn2⟩ := wf_cons.mp hn
      have haa : a = a' := by
        rcases Nat.lt_trichotomy a a' with hlt | heq | hgt
        · have h1 := h a
          rw [read_below hn (by simpa using hlt)] at h1
          simp [Memory.read] at h1
        · exact heq
        · have h1 := h a'
          rw [read_below hm (by simpa using hgt)] at h1
          simp [Memory.read] at h1
      subst haa
      have hbb : b = b' := by simpa [Memory.read] using h a
      subst hbb
      refine congrArg _ (ih hm2 hn2 fun i => ?_)
      by_cases hi : a = i
      · subst hi
        rw [read_below hm2 hm1, read_below hn2 hn1]
      · simpa [Memory.read, hi] using h i

end Sys2Proof.Machine
end

