-- ==== Sys2Proof/Laws/PerInstr.lean ====
section
/-! SUPPORT. Facts about every instruction as syntax, one lemma per constructor. -/

namespace Sys2Proof.Laws

/-- The word of a well-formed instruction is legal for the command decoder exactly when the instruction is a legal
command (R82, R83). -/
def EncodedLegality.Statement (i : Instr) : Prop :=
  i.wellFormed = true → i.format = .cmd16 → (isLegalCommand (encode i) = true ↔ ∀ w, i ≠ .illegal w)

theorem EncodedLegality.nop : EncodedLegality.Statement .nop := by
  intro _ _
  simp [encode, commandWord, isLegalCommand]

theorem EncodedLegality.append (c : Byte) : EncodedLegality.Statement (.append c) := by
  intro _ _
  have h : ∀ c : Byte, isLegalCommand (encode (.append c)) = true := by decide
  simp [h c]

theorem EncodedLegality.clear : EncodedLegality.Statement .clear := by
  intro _ _
  simp [encode, commandWord, isLegalCommand]

theorem EncodedLegality.send : EncodedLegality.Statement .send := by
  intro _ _
  simp [encode, commandWord, isLegalCommand]

theorem EncodedLegality.illegal (w : CmdWord) : EncodedLegality.Statement (.illegal w) := by
  intro h _
  simp only [Instr.wellFormed, Bool.not_eq_true'] at h
  simp [encode, h]

theorem EncodedLegality.cwInvalid : EncodedLegality.Statement .cwInvalid := by
  intro _ h; simp [Instr.format] at h

theorem EncodedLegality.cwEnd : EncodedLegality.Statement .cwEnd := by
  intro _ h; simp [Instr.format] at h

theorem EncodedLegality.cwDit (r : BitVec 15) : EncodedLegality.Statement (.cwDit r) := by
  intro _ h; simp [Instr.format] at h

theorem EncodedLegality.cwDah (r : BitVec 15) : EncodedLegality.Statement (.cwDah r) := by
  intro _ h; simp [Instr.format] at h

end Sys2Proof.Laws
end

