-- ==== Sys2Proof/Laws/State.lean ====
section
/-! SUPPORT. One lemma per field of each named update, and the small lemmas of `mapNext`, so that no proof unfolds a
record update. -/

namespace Sys2Proof.Machine

/-! ## `enter` -/

@[simp] theorem enter_cfg (p : Phase) (d : Nat) (s : State) : (enter p d s).cfg = s.cfg := rfl
@[simp] theorem enter_phase (p : Phase) (d : Nat) (s : State) : (enter p d s).phase = p := rfl
@[simp] theorem enter_timer (p : Phase) (d : Nat) (s : State) : (enter p d s).timer = d - 1 := rfl
@[simp] theorem enter_idx (p : Phase) (d : Nat) (s : State) : (enter p d s).idx = s.idx := rfl
@[simp] theorem enter_len (p : Phase) (d : Nat) (s : State) : (enter p d s).len = s.len := rfl
@[simp] theorem enter_sr (p : Phase) (d : Nat) (s : State) : (enter p d s).sr = s.sr := rfl
@[simp] theorem enter_sym (p : Phase) (d : Nat) (s : State) : (enter p d s).sym = s.sym := rfl
@[simp] theorem enter_ovf (p : Phase) (d : Nat) (s : State) : (enter p d s).ovf = s.ovf := rfl
@[simp] theorem enter_ill (p : Phase) (d : Nat) (s : State) : (enter p d s).ill = s.ill := rfl
@[simp] theorem enter_mb (p : Phase) (d : Nat) (s : State) : (enter p d s).mb = s.mb := rfl
@[simp] theorem enter_inputs (p : Phase) (d : Nat) (s : State) : (enter p d s).inputs = s.inputs := rfl

/-! ## `tick` -/

@[simp] theorem tick_cfg (s : State) : (tick s).cfg = s.cfg := rfl
@[simp] theorem tick_phase (s : State) : (tick s).phase = s.phase := rfl
@[simp] theorem tick_timer (s : State) : (tick s).timer = s.timer - 1 := rfl
@[simp] theorem tick_idx (s : State) : (tick s).idx = s.idx := rfl
@[simp] theorem tick_len (s : State) : (tick s).len = s.len := rfl
@[simp] theorem tick_sr (s : State) : (tick s).sr = s.sr := rfl
@[simp] theorem tick_sym (s : State) : (tick s).sym = s.sym := rfl
@[simp] theorem tick_ovf (s : State) : (tick s).ovf = s.ovf := rfl
@[simp] theorem tick_ill (s : State) : (tick s).ill = s.ill := rfl
@[simp] theorem tick_mb (s : State) : (tick s).mb = s.mb := rfl
@[simp] theorem tick_inputs (s : State) : (tick s).inputs = s.inputs := rfl

/-! ## `stopTransmission` -/

@[simp] theorem stop_cfg (s : State) : (stopTransmission s).cfg = s.cfg := rfl
@[simp] theorem stop_phase (s : State) : (stopTransmission s).phase = .idle := rfl
@[simp] theorem stop_timer (s : State) : (stopTransmission s).timer = 0 := rfl
@[simp] theorem stop_idx (s : State) : (stopTransmission s).idx = s.idx := rfl
@[simp] theorem stop_len (s : State) : (stopTransmission s).len = s.len := rfl
@[simp] theorem stop_sr (s : State) : (stopTransmission s).sr = s.sr := rfl
@[simp] theorem stop_sym (s : State) : (stopTransmission s).sym = s.sym := rfl
@[simp] theorem stop_ovf (s : State) : (stopTransmission s).ovf = s.ovf := rfl
@[simp] theorem stop_ill (s : State) : (stopTransmission s).ill = s.ill := rfl
@[simp] theorem stop_mb (s : State) : (stopTransmission s).mb = s.mb := rfl
@[simp] theorem stop_inputs (s : State) : (stopTransmission s).inputs = s.inputs := rfl

/-! ## `resetRegisters` -/

@[simp] theorem reset_cfg (s : State) : (resetRegisters s).cfg = s.cfg := rfl
@[simp] theorem reset_phase (s : State) : (resetRegisters s).phase = .idle := rfl
@[simp] theorem reset_timer (s : State) : (resetRegisters s).timer = 0 := rfl
@[simp] theorem reset_idx (s : State) : (resetRegisters s).idx = 0#8 := rfl
@[simp] theorem reset_len (s : State) : (resetRegisters s).len = 0#8 := rfl
@[simp] theorem reset_sr (s : State) : (resetRegisters s).sr = 1#16 := rfl
@[simp] theorem reset_sym (s : State) : (resetRegisters s).sym = .dit := rfl
@[simp] theorem reset_ovf (s : State) : (resetRegisters s).ovf = false := rfl
@[simp] theorem reset_ill (s : State) : (resetRegisters s).ill = false := rfl
@[simp] theorem reset_mb (s : State) : (resetRegisters s).mb = s.mb := rfl
@[simp] theorem reset_inputs (s : State) : (resetRegisters s).inputs = s.inputs := rfl

/-! ## The sticky flags -/

@[simp] theorem setOvf_cfg (s : State) : (setOvf s).cfg = s.cfg := rfl
@[simp] theorem setOvf_phase (s : State) : (setOvf s).phase = s.phase := rfl
@[simp] theorem setOvf_timer (s : State) : (setOvf s).timer = s.timer := rfl
@[simp] theorem setOvf_idx (s : State) : (setOvf s).idx = s.idx := rfl
@[simp] theorem setOvf_len (s : State) : (setOvf s).len = s.len := rfl
@[simp] theorem setOvf_sr (s : State) : (setOvf s).sr = s.sr := rfl
@[simp] theorem setOvf_sym (s : State) : (setOvf s).sym = s.sym := rfl
@[simp] theorem setOvf_ovf (s : State) : (setOvf s).ovf = true := rfl
@[simp] theorem setOvf_ill (s : State) : (setOvf s).ill = s.ill := rfl
@[simp] theorem setOvf_mb (s : State) : (setOvf s).mb = s.mb := rfl
@[simp] theorem setOvf_inputs (s : State) : (setOvf s).inputs = s.inputs := rfl

@[simp] theorem setIll_cfg (s : State) : (setIll s).cfg = s.cfg := rfl
@[simp] theorem setIll_phase (s : State) : (setIll s).phase = s.phase := rfl
@[simp] theorem setIll_timer (s : State) : (setIll s).timer = s.timer := rfl
@[simp] theorem setIll_idx (s : State) : (setIll s).idx = s.idx := rfl
@[simp] theorem setIll_len (s : State) : (setIll s).len = s.len := rfl
@[simp] theorem setIll_sr (s : State) : (setIll s).sr = s.sr := rfl
@[simp] theorem setIll_sym (s : State) : (setIll s).sym = s.sym := rfl
@[simp] theorem setIll_ovf (s : State) : (setIll s).ovf = s.ovf := rfl
@[simp] theorem setIll_ill (s : State) : (setIll s).ill = true := rfl
@[simp] theorem setIll_mb (s : State) : (setIll s).mb = s.mb := rfl
@[simp] theorem setIll_inputs (s : State) : (setIll s).inputs = s.inputs := rfl

@[simp] theorem clearFlags_cfg (s : State) : (clearFlags s).cfg = s.cfg := rfl
@[simp] theorem clearFlags_phase (s : State) : (clearFlags s).phase = s.phase := rfl
@[simp] theorem clearFlags_timer (s : State) : (clearFlags s).timer = s.timer := rfl
@[simp] theorem clearFlags_idx (s : State) : (clearFlags s).idx = s.idx := rfl
@[simp] theorem clearFlags_len (s : State) : (clearFlags s).len = s.len := rfl
@[simp] theorem clearFlags_sr (s : State) : (clearFlags s).sr = s.sr := rfl
@[simp] theorem clearFlags_sym (s : State) : (clearFlags s).sym = s.sym := rfl
@[simp] theorem clearFlags_ovf (s : State) : (clearFlags s).ovf = false := rfl
@[simp] theorem clearFlags_ill (s : State) : (clearFlags s).ill = false := rfl
@[simp] theorem clearFlags_mb (s : State) : (clearFlags s).mb = s.mb := rfl
@[simp] theorem clearFlags_inputs (s : State) : (clearFlags s).inputs = s.inputs := rfl

/-! ## `dropInput` -/

@[simp] theorem dropInput_cfg (s : State) : (dropInput s).cfg = s.cfg := rfl
@[simp] theorem dropInput_phase (s : State) : (dropInput s).phase = s.phase := rfl
@[simp] theorem dropInput_timer (s : State) : (dropInput s).timer = s.timer := rfl
@[simp] theorem dropInput_idx (s : State) : (dropInput s).idx = s.idx := rfl
@[simp] theorem dropInput_len (s : State) : (dropInput s).len = s.len := rfl
@[simp] theorem dropInput_sr (s : State) : (dropInput s).sr = s.sr := rfl
@[simp] theorem dropInput_sym (s : State) : (dropInput s).sym = s.sym := rfl
@[simp] theorem dropInput_ovf (s : State) : (dropInput s).ovf = s.ovf := rfl
@[simp] theorem dropInput_ill (s : State) : (dropInput s).ill = s.ill := rfl
@[simp] theorem dropInput_mb (s : State) : (dropInput s).mb = s.mb := rfl
@[simp] theorem dropInput_inputs (s : State) : (dropInput s).inputs = s.inputs.drop 1 := rfl

/-- The inputs seen after an edge are the old ones, one edge on. -/
theorem inputAt_dropInput (s : State) (k : Nat) : (dropInput s).inputAt k = s.inputAt (k + 1) := by
  simp [State.inputAt]

/-! ## `unpackStep` -/

@[simp] theorem unpackStep_cfg (v : CodeWord) (s : State) : (unpackStep v s).cfg = s.cfg := rfl
@[simp] theorem unpackStep_phase (v : CodeWord) (s : State) : (unpackStep v s).phase = .mark := rfl
@[simp] theorem unpackStep_timer (v : CodeWord) (s : State) :
    (unpackStep v s).timer = markCycles s.cfg (firstSymbol v) - 1 := rfl
@[simp] theorem unpackStep_idx (v : CodeWord) (s : State) : (unpackStep v s).idx = s.idx := rfl
@[simp] theorem unpackStep_len (v : CodeWord) (s : State) : (unpackStep v s).len = s.len := rfl
@[simp] theorem unpackStep_sr (v : CodeWord) (s : State) : (unpackStep v s).sr = shiftRight1 v := rfl
@[simp] theorem unpackStep_sym (v : CodeWord) (s : State) : (unpackStep v s).sym = firstSymbol v := rfl
@[simp] theorem unpackStep_ovf (v : CodeWord) (s : State) : (unpackStep v s).ovf = s.ovf := rfl
@[simp] theorem unpackStep_ill (v : CodeWord) (s : State) : (unpackStep v s).ill = s.ill := rfl
@[simp] theorem unpackStep_mb (v : CodeWord) (s : State) : (unpackStep v s).mb = s.mb := rfl
@[simp] theorem unpackStep_inputs (v : CodeWord) (s : State) : (unpackStep v s).inputs = s.inputs := rfl

/-! ## The outputs of each phase -/

@[simp] theorem gate_idle : Phase.gate .idle = false := rfl
@[simp] theorem gate_warmup : Phase.gate .warmup = true := rfl
@[simp] theorem gate_mark : Phase.gate .mark = true := rfl
@[simp] theorem gate_elemGap : Phase.gate .elemGap = true := rfl
@[simp] theorem gate_charSpace : Phase.gate .charSpace = true := rfl
@[simp] theorem gate_letterSpace : Phase.gate .letterSpace = true := rfl
@[simp] theorem gate_unused6 : Phase.gate .unused6 = false := rfl
@[simp] theorem gate_unused7 : Phase.gate .unused7 = false := rfl
@[simp] theorem key_idle : Phase.key .idle = false := rfl
@[simp] theorem key_warmup : Phase.key .warmup = false := rfl
@[simp] theorem key_mark : Phase.key .mark = true := rfl
@[simp] theorem key_elemGap : Phase.key .elemGap = false := rfl
@[simp] theorem key_charSpace : Phase.key .charSpace = false := rfl
@[simp] theorem key_letterSpace : Phase.key .letterSpace = false := rfl
@[simp] theorem key_unused6 : Phase.key .unused6 = false := rfl
@[simp] theorem key_unused7 : Phase.key .unused7 = false := rfl

/-! ## `mapNext` -/

@[simp] theorem mapNext_next (f : State → State) (s : State) : mapNext f (.next s) = .next (f s) := rfl
@[simp] theorem mapNext_fault (f : State → State) (r : Fault) : mapNext f (.fault r) = .fault r := rfl
@[simp] theorem mapNext_refused (f : State → State) (r : Refusal) : mapNext f (.refused r) = .refused r := rfl

/-- A mapped outcome is `next` only where the outcome was. -/
theorem mapNext_eq_next {f : State → State} {o : Host.Outcome State Fault Refusal} {t : State}
    (h : mapNext f o = .next t) : ∃ u, o = .next u ∧ t = f u := by
  cases o with
  | next u => exact ⟨u, rfl, by simpa using h.symm⟩
  | fault r => simp at h
  | refused r => simp at h

end Sys2Proof.Machine
end

