-- ==== Sys2Proof/Laws/Table.lean ====
section
/-! SUPPORT. The checks of a configuration as plain facts, and what LOOKUP can answer. -/

namespace Sys2Proof.Machine

/-- The checks of `Config.wellFormed`, one by one. -/
theorem wellFormed_parts (c : Config) :
    c.wellFormed = true ↔ c.rangesOk = true ∧ c.timerFits = true ∧ c.lockStep = true ∧ c.codesNonzero = true
      ∧ c.codesFit = true ∧ c.alphabetDistinct = true ∧ c.alphabetNoLowercase = true := by
  simp [Config.wellFormed]

theorem ranges_of_wellFormed {c : Config} (h : c.wellFormed = true) :
    1 ≤ c.n ∧ c.n ≤ 256 ∧ 2 ≤ c.cw ∧ c.cw ≤ 16 ∧ 1 ≤ c.ditCycles ∧ 1 ≤ c.warmupCycles ∧ 1 ≤ c.msgMax
      ∧ c.msgMax ≤ 255 := by
  have h1 := ((wellFormed_parts c).mp h).1
  simp only [Config.rangesOk, Bool.and_eq_true, decide_eq_true_eq] at h1
  omega

/-- Every loaded timer value fits: 3 · DIT_CYCLES - 1 and WARMUP_CYCLES - 1. -/
theorem timer_of_wellFormed {c : Config} (h : c.wellFormed = true) :
    3 * c.ditCycles - 1 < 2 ^ c.timerW ∧ c.warmupCycles - 1 < 2 ^ c.timerW := by
  have h1 := ((wellFormed_parts c).mp h).2.1
  simp only [Config.timerFits, decide_eq_true_eq] at h1
  omega

theorem codes_of_wellFormed {c : Config} (h : c.wellFormed = true) :
    ∀ v ∈ c.codes, v ≠ 0#16 ∧ v.toNat < 2 ^ c.cw := by
  have h1 := (wellFormed_parts c).mp h
  intro v hv
  have h2 := h1.2.2.2.1
  have h3 := h1.2.2.2.2.1
  simp only [Config.codesNonzero, Config.codesFit, List.all_eq_true, decide_eq_true_eq] at h2 h3
  exact ⟨h2 v hv, h3 v hv⟩

theorem distinctChars_iff_nodup (l : List Byte) : distinctChars l = true ↔ l.Nodup := by
  induction l with
  | nil => simp [distinctChars]
  | cons a as ih =>
    simp only [distinctChars, Bool.and_eq_true, List.all_eq_true, decide_eq_true_eq, ih, List.nodup_cons]
    constructor
    · rintro ⟨h1, h2⟩
      exact ⟨fun hm => h1 a hm rfl, h2⟩
    · rintro ⟨h1, h2⟩
      exact ⟨fun b hb he => h1 (he ▸ hb), h2⟩

/-- LOOKUP answers SPACE_CODE or an entry of the table. -/
theorem lookupIn_space_or_mem (as : List Byte) (vs : List CodeWord) (c : Byte) :
    lookupIn as vs c = spaceCode ∨ lookupIn as vs c ∈ vs := by
  induction as generalizing vs with
  | nil => left; simp [lookupIn]
  | cons a as ih =>
    cases vs with
    | nil => left; simp [lookupIn]
    | cons v vs =>
      simp only [lookupIn]
      split
      · right; simp
      · rcases ih vs with h | h
        · exact .inl h
        · exact .inr (List.mem_cons_of_mem _ h)

end Sys2Proof.Machine
end

