-- ==== Sys2Proof/Laws/Step.lean ====
section
/-! SUPPORT. What each shared operation and one step can do, said once. -/

namespace Sys2Proof.Machine

/-! ## Segment lengths -/

@[simp] theorem markCycles_dit (c : Config) : markCycles c .dit = c.ditCycles := by simp [markCycles]
@[simp] theorem markCycles_dah (c : Config) : markCycles c .dah = c.ditCycles * 3 := rfl
@[simp] theorem gapCycles_eq (c : Config) : gapCycles c = c.ditCycles := by simp [gapCycles, gapUnits]
@[simp] theorem letterCycles_eq (c : Config) : letterCycles c = 3 * c.ditCycles := rfl

/-! ## What the unpacker's decoded step does -/

/-- The first symbol of the code word of a CW.DIT. -/
@[simp] theorem firstSymbol_dit (r : BitVec 15) : firstSymbol (symbolWord r 0#1) = .dit := by
  unfold firstSymbol symbolWord
  rw [BitVec.getLsbD_append]
  rfl

/-- The first symbol of the code word of a CW.DAH. -/
@[simp] theorem firstSymbol_dah (r : BitVec 15) : firstSymbol (symbolWord r 1#1) = .dah := by
  unfold firstSymbol symbolWord
  rw [BitVec.getLsbD_append]
  rfl

/-- Shifting a symbol step's code word leaves its remainder. -/
@[simp] theorem shiftRight1_symbolWord (r : BitVec 15) (b : BitVec 1) :
    shiftRight1 (symbolWord r b) = r.setWidth 16 := by
  apply BitVec.eq_of_getLsbD_eq
  intro i hi
  unfold shiftRight1 symbolWord
  rw [BitVec.getLsbD_ushiftRight, BitVec.getLsbD_append, BitVec.getLsbD_setWidth]
  simp [hi]

/-- `v >> 1` as a number (R137). -/
theorem shiftRight1_toNat (v : CodeWord) : (shiftRight1 v).toNat = v.toNat / 2 := by
  simp [shiftRight1, Nat.shiftRight_eq_div_pow]

/-- `k` shifts of the unpacker as a number. -/
theorem shiftRight1_iterate_toNat (k : Nat) (v : CodeWord) : (shiftRight1^[k] v).toNat = v.toNat / 2 ^ k := by
  induction k generalizing v with
  | zero => simp
  | succ k ih => rw [Function.iterate_succ_apply, ih, shiftRight1_toNat, Nat.div_div_eq_div_mul, Nat.pow_succ']

/-- A decoded code word v ≥ 2 runs `unpackStep v` itself: decoding drops no bit of it. -/
theorem exec_symbol (v : CodeWord) (s : State) (h0 : v ≠ 0#16) (h1 : v ≠ 1#16) :
    exec (decodeCodeWord v) s = .next (unpackStep v s) := by
  have hbit := (remainder_append_bit v).symm
  unfold decodeCodeWord
  simp only [h0, h1, if_false]
  by_cases hb : isDahBit v = true
  · rw [if_pos hb]
    rw [hb] at hbit
    exact congrArg (fun w => Host.Outcome.next (unpackStep w s)) hbit.symm
  · rw [if_neg hb]
    rw [Bool.not_eq_true] at hb
    rw [hb] at hbit
    exact congrArg (fun w => Host.Outcome.next (unpackStep w s)) hbit.symm

/-- Every decoded code word runs to a next state: an end of code for 0 and 1, a symbol step otherwise. -/
theorem exec_codeWord (v : CodeWord) (s : State) :
    exec (decodeCodeWord v) s = .next (if v = 0#16 ∨ v = 1#16 then endOfCode s else unpackStep v s) := by
  by_cases h0 : v = 0#16
  · subst h0; rfl
  · by_cases h1 : v = 1#16
    · subst h1; rfl
    · rw [exec_symbol v s h0 h1]; simp [h0, h1]

/-! ## What a character start does -/

/-- `startChar i` when it answers a next state: the message has ended, or character `i` was read and its code word's
step ran. -/
theorem startChar_cases {i : BitVec 8} {s t : State} (h : startChar i s = .next t) :
    (i = s.len ∧ t = stopTransmission { s with idx := i }) ∨
    (i ≠ s.len ∧ i.toNat < s.cfg.msgMax ∧ ∃ c, Memory.read s.mb i.toNat = some c ∧
      exec (decodeCodeWord (codeOf s.cfg c)) { s with idx := i } = .next t) := by
  unfold startChar at h
  split at h
  next he => exact .inl ⟨he, by simpa using h.symm⟩
  next hne =>
    right
    unfold readEntry at h
    by_cases hm : i.toNat < s.cfg.msgMax
    · cases hr : Memory.read s.mb i.toNat with
      | none => simp [hm, hr] at h
      | some c => simp only [hm, hr, if_true] at h; exact ⟨hne, hm, c, rfl, h⟩
    · simp [hm] at h

/-- `startChar` runs where the character exists and has been written. -/
theorem startChar_some {i : BitVec 8} {s : State} {c : Byte} (hne : i ≠ s.len) (hm : i.toNat < s.cfg.msgMax)
    (hr : Memory.read s.mb i.toNat = some c) :
    startChar i s = exec (decodeCodeWord (codeOf s.cfg c)) { s with idx := i } := by
  simp [startChar, readEntry, hne, hm, hr]

theorem startChar_end {i : BitVec 8} {s : State} (h : i = s.len) :
    startChar i s = .next (stopTransmission { s with idx := i }) := by
  simp [startChar, h]

/-! ## What an accepted command does -/

/-- Every command word runs to a next state, one of six kinds. -/
theorem exec_command_cases (w : CmdWord) (s : State) :
    ∃ t, exec (decodeCommand w) s = .next t ∧
      (t = s ∨
       (∃ c, decodeCommand w = .append c ∧ s.len.toNat < s.cfg.msgMax ∧
          t = { s with mb := Memory.write s.mb s.len.toNat c, len := s.len + 1#8 }) ∨
       (∃ c, decodeCommand w = .append c ∧ ¬ s.len.toNat < s.cfg.msgMax ∧ t = setOvf s) ∨
       (decodeCommand w = .clear ∧ t = { clearFlags s with len := 0#8 }) ∨
       (decodeCommand w = .send ∧ s.sampled.suppress = false ∧
          t = enter .warmup s.cfg.warmupCycles { s with idx := 0#8 }) ∨
       (decodeCommand w = .illegal w ∧ t = setIll s)) := by
  unfold decodeCommand
  split
  · exact ⟨_, rfl, .inl rfl⟩
  · split
    · by_cases h : s.len.toNat < s.cfg.msgMax
      · exact ⟨_, by simp only [exec, execAppend, h, if_true], .inr (.inl ⟨_, rfl, h, rfl⟩)⟩
      · exact ⟨_, by simp only [exec, execAppend, h, if_false], .inr (.inr (.inl ⟨_, rfl, h, rfl⟩))⟩
    · split
      · exact ⟨_, rfl, .inr (.inr (.inr (.inl ⟨rfl, rfl⟩)))⟩
      · split
        · cases h : s.sampled.suppress with
          | true => exact ⟨_, by simp only [exec, execSend, h, if_true], .inl rfl⟩
          | false =>
            exact ⟨_, by simp only [exec, execSend, h]; rfl, .inr (.inr (.inr (.inr (.inl ⟨rfl, rfl, rfl⟩))))⟩
        · exact ⟨_, rfl, .inr (.inr (.inr (.inr (.inr ⟨rfl, rfl⟩))))⟩

/-! ## What one step does -/

/-- A step answers a next state only over an admitted configuration, and it is then the clock edge's, the inputs moved
on by one edge. -/
theorem step_next {s t : State} (h : step s = .next t) :
    s.cfg.wellFormed = true ∧ ∃ u, clockEdge s = .next u ∧ t = dropInput u := by
  unfold step guardedEdge at h
  split at h
  next hw => exact ⟨hw, mapNext_eq_next h⟩
  next => simp at h

theorem step_of_clockEdge {s u : State} (hw : s.cfg.wellFormed = true) (h : clockEdge s = .next u) :
    step s = .next (dropInput u) := by
  simp [step, guardedEdge, hw, edgeOutcome, h]

/-- The phases with a segment: 1 to 5. -/
abbrev InSegment (s : State) : Prop :=
  s.phase = .warmup ∨ s.phase = .mark ∨ s.phase = .elemGap ∨ s.phase = .charSpace ∨ s.phase = .letterSpace

/-- The phases with a segment are those with the gate on. -/
theorem gate_iff_inSegment (s : State) : s.phase.gate = true ↔ InSegment s := by
  cases h : s.phase <;> simp [InSegment, h]

/-- R200: what acceptance means. -/
theorem accepts_iff (s : State) :
    s.accepts = true ↔ s.sampled.rst = false ∧ s.sampled.cmdValid = true ∧ s.phase = .idle := by
  simp [State.accepts, State.cmdReady, and_assoc]

theorem clockEdge_reset {s : State} (h : s.sampled.rst = true) : clockEdge s = .next (resetRegisters s) := by
  simp [clockEdge, h]

theorem clockEdge_idle {s : State} (hr : s.sampled.rst = false) (hp : s.phase = .idle) :
    clockEdge s = idleEdge s := by simp [clockEdge, hr, hp]

theorem clockEdge_segment {s : State} (hr : s.sampled.rst = false) (hp : InSegment s) :
    clockEdge s = runSegment s := by
  rcases hp with h | h | h | h | h <;> simp [clockEdge, hr, h]

theorem clockEdge_unused {s : State} (hr : s.sampled.rst = false) (hp : s.phase = .unused6 ∨ s.phase = .unused7) :
    clockEdge s = .next { s with phase := .idle } := by
  rcases hp with h | h <;> simp [clockEdge, hr, h]

/-- Every state is in exactly one branch of R170. -/
theorem phase_branches (s : State) :
    s.phase = .idle ∨ InSegment s ∨ (s.phase = .unused6 ∨ s.phase = .unused7) := by
  cases h : s.phase <;> simp [InSegment, h]

/-- What the end of a segment does when it answers a next state. -/
theorem endOfSegment_cases {s t : State} (hp : InSegment s) (h : endOfSegment s = .next t) :
    (s.phase = .warmup ∧ startChar 0#8 s = .next t) ∨
    (s.phase = .mark ∧ t = enter .elemGap (gapCycles s.cfg) s) ∨
    (s.phase = .elemGap ∧ exec (decodeCodeWord s.sr) s = .next t) ∨
    (s.phase = .charSpace ∧ t = enter .letterSpace (letterCycles s.cfg) s) ∨
    (s.phase = .letterSpace ∧ startChar (s.idx + 1#8) s = .next t) := by
  rcases hp with hp | hp | hp | hp | hp <;> simp only [endOfSegment, hp] at h
  · exact .inl ⟨hp, h⟩
  · exact .inr (.inl ⟨hp, by simpa using h.symm⟩)
  · exact .inr (.inr (.inl ⟨hp, h⟩))
  · exact .inr (.inr (.inr (.inl ⟨hp, by simpa using h.symm⟩)))
  · exact .inr (.inr (.inr (.inr ⟨hp, h⟩)))

/-- The six things a clock edge that answers a next state can have done. -/
theorem clockEdge_cases {s u : State} (h : clockEdge s = .next u) :
    (s.sampled.rst = true ∧ u = resetRegisters s) ∨
    (s.sampled.rst = false ∧ s.phase = .idle ∧ s.sampled.cmdValid = false ∧ u = s) ∨
    (s.sampled.rst = false ∧ s.phase = .idle ∧ s.sampled.cmdValid = true ∧
      exec (decodeCommand s.sampled.cmd) s = .next u) ∨
    (s.sampled.rst = false ∧ InSegment s ∧ s.timer ≠ 0 ∧ u = tick s) ∨
    (s.sampled.rst = false ∧ InSegment s ∧ s.timer = 0 ∧ endOfSegment s = .next u) ∨
    (s.sampled.rst = false ∧ (s.phase = .unused6 ∨ s.phase = .unused7) ∧ u = { s with phase := .idle }) := by
  cases hr : s.sampled.rst with
  | true =>
    rw [clockEdge_reset hr] at h
    exact .inl ⟨rfl, by simpa using h.symm⟩
  | false =>
    right
    rcases phase_branches s with hp | hp | hp
    · rw [clockEdge_idle hr hp] at h
      cases hv : s.sampled.cmdValid with
      | true => simp only [idleEdge, hv, if_true] at h; exact .inr (.inl ⟨rfl, hp, rfl, h⟩)
      | false => exact .inl ⟨rfl, hp, rfl, by simpa [idleEdge, hv] using h.symm⟩
    · rw [clockEdge_segment hr hp] at h
      by_cases ht : s.timer = 0
      · simp only [runSegment, ht] at h
        exact .inr (.inr (.inr (.inl ⟨rfl, hp, ht, by simpa using h⟩)))
      · rw [runSegment, if_pos ht] at h
        exact .inr (.inr (.inl ⟨rfl, hp, ht, by simpa using h.symm⟩))
    · rw [clockEdge_unused hr hp] at h
      exact .inr (.inr (.inr (.inr ⟨rfl, hp, by simpa using h.symm⟩)))

/-! ## Runs -/

@[simp] theorem run_zero (s : State) : run 0 s = .next s := rfl

theorem run_succ {s t : State} (k : Nat) (h : step s = .next t) : run (k + 1) s = run k t := by simp [run, h]

/-- Runs compose. -/
theorem run_add {s t : State} (j k : Nat) (h : run j s = .next t) : run (j + k) s = run k t := by
  induction j generalizing s with
  | zero =>
    have hst : s = t := by simpa using h
    rw [hst, Nat.zero_add]
  | succ j ih =>
    cases hs : step s with
    | next u =>
      rw [run_succ j hs] at h
      rw [show j + 1 + k = j + k + 1 by omega, run_succ _ hs]
      exact ih h
    | fault r => simp [run, hs] at h
    | refused r => simp [run, hs] at h

/-- An invariant that every step keeps holds after every run that answers a next state. -/
theorem run_keeps {P : State → Prop} (hstep : ∀ s t, P s → step s = .next t → P t) {k : Nat} {s t : State}
    (hs : P s) (h : run k s = .next t) : P t := by
  induction k generalizing s with
  | zero => rw [← show s = t by simpa using h]; exact hs
  | succ k ih =>
    cases hu : step s with
    | next u => exact ih (hstep s u hs hu) (by rwa [run_succ k hu] at h)
    | fault r => simp [run, hu] at h
    | refused r => simp [run, hu] at h

/-- The model's run is the host interface's. -/
theorem run_eq_core_run (k : Nat) (s : State) : run k s = Host.Core.run Sys2Proof.core k s := by
  induction k generalizing s with
  | zero => rfl
  | succ k ih =>
    cases hs : step s with
    | next t =>
      have hc : Host.Core.step Sys2Proof.core s = .next t := hs
      rw [run_succ k hs, ih t]
      simp only [Host.Core.run, hc]
      rfl
    | fault r =>
      have hc : Host.Core.step Sys2Proof.core s = .fault r := hs
      simp only [run, Host.Core.run, hs, hc]
      rfl
    | refused r =>
      have hc : Host.Core.step Sys2Proof.core s = .refused r := hs
      simp only [run, Host.Core.run, hs, hc]
      rfl

end Sys2Proof.Machine
end

