-- ==== Sys2Proof/Tests/Slice0.lean ====
section
/-! SUPPORT. Tests and witnesses.  The expected values come from the spec: the encodings of rules R82 and R88, the
tables of spec/95_test_vectors.md, and the pseudocode of the rule a test names. -/

namespace Sys2Proof.Tests

open Sys2Proof.Machine

/-! ## Small configurations and states -/

/-- Four characters: ' ' = 1, 'E' = `.`, 'T' = `-`, 'A' = `.-` (values of R117), with every parameter at the smallest
value the table admits, but MSG_MAX = 2. -/
def small : Config where
  n := 4
  alphabet := [0x20#8, 0x45#8, 0x54#8, 0x41#8]
  codes := [1#16, 2#16, 3#16, 6#16]
  cw := 3
  ditCycles := 1
  warmupCycles := 1
  msgMax := 2
  timerW := 2
  clkHz := 1
  wpm := 1

/-- IDLE with an empty buffer. -/
def idleEmpty : Machine.State := { Machine.State.reset with cfg := small }

/-- IDLE with the message "A " in the full buffer. -/
def idleFull : Machine.State := { idleEmpty with len := 2#8, mb := [(0, 0x41#8), (1, 0x20#8)] }

/-- The host offers `w` at the coming edge, with `suppress = 0`. -/
def offer (s : Machine.State) (w : CmdWord) : Machine.State := { s with inputs := [⟨false, true, w, false⟩] }

/-- The host offers SEND with `suppress = 1`. -/
def offerSuppressed (s : Machine.State) : Machine.State := { s with inputs := [⟨false, true, 0x3000#16, true⟩] }

/-- In a segment of the transmission of "A ". -/
def inSegment (p : Phase) (timer : Nat) (idx : BitVec 8) (sr : CodeWord) (sym : Symbol) : Machine.State :=
  { idleFull with phase := p, timer := timer, idx := idx, sr := sr, sym := sym }

/-- The outcome is a next state with the property. -/
def nextAnd (o : Host.Outcome Machine.State Fault Refusal) (p : Machine.State → Bool) : Bool :=
  match o with
  | .next t => p t
  | .fault _ => false
  | .refused _ => false

/-- The outcome is that next state. -/
def nextIs (o : Host.Outcome Machine.State Fault Refusal) (t : Machine.State) : Bool :=
  nextAnd o fun u => decide (u = t)

/-! ## WellFormed refuses an ill-formed term at each check -/

theorem test_wf_small : small.wellFormed = true := by decide
theorem test_wf_default : defaultConfig.wellFormed = true := by decide
theorem test_wf_n_zero :
    ({ small with n := 0, alphabet := [], codes := [] } : Config).wellFormed = false := by decide
theorem test_wf_n_too_large : ({ small with n := 257 } : Config).rangesOk = false := by decide
theorem test_wf_cw_low : ({ small with cw := 1 } : Config).rangesOk = false := by decide
theorem test_wf_cw_high : ({ small with cw := 17 } : Config).rangesOk = false := by decide
theorem test_wf_dit_zero : ({ small with ditCycles := 0 } : Config).wellFormed = false := by decide
theorem test_wf_warmup_zero : ({ small with warmupCycles := 0 } : Config).wellFormed = false := by decide
theorem test_wf_msgMax_zero : ({ small with msgMax := 0 } : Config).wellFormed = false := by decide
theorem test_wf_msgMax_high : ({ small with msgMax := 256 } : Config).wellFormed = false := by decide
theorem test_wf_clkHz_zero : ({ small with clkHz := 0 } : Config).wellFormed = false := by decide
theorem test_wf_wpm_zero : ({ small with wpm := 0 } : Config).wellFormed = false := by decide
/-- 3·DIT_CYCLES − 1 = 2 does not fit one bit. -/
theorem test_wf_timer_narrow : ({ small with timerW := 1 } : Config).timerFits = false := by decide
/-- WARMUP_CYCLES − 1 = 4 does not fit two bits, and 3 does. -/
theorem test_wf_timer_warmup :
    ({ small with warmupCycles := 5 } : Config).wellFormed = false
    ∧ ({ small with warmupCycles := 4 } : Config).wellFormed = true := by decide
theorem test_wf1_short_codes : ({ small with codes := [1#16, 2#16, 3#16] } : Config).lockStep = false := by decide
theorem test_wf1_short_alphabet : ({ small with alphabet := [0x20#8] } : Config).lockStep = false := by decide
theorem test_wf2_zero_code :
    ({ small with codes := [1#16, 0#16, 3#16, 6#16] } : Config).wellFormed = false := by decide
theorem test_wf3_code_too_wide :
    ({ small with codes := [1#16, 2#16, 3#16, 8#16] } : Config).wellFormed = false := by decide
theorem test_wf4_duplicate :
    ({ small with alphabet := [0x20#8, 0x45#8, 0x54#8, 0x45#8] } : Config).wellFormed = false := by decide
theorem test_wf5_lowercase :
    ({ small with alphabet := [0x20#8, 0x45#8, 0x54#8, 0x61#8] } : Config).wellFormed = false
    ∧ ({ small with alphabet := [0x20#8, 0x45#8, 0x54#8, 0x7A#8] } : Config).wellFormed = false
    ∧ ({ small with alphabet := [0x20#8, 0x45#8, 0x60#8, 0x7B#8] } : Config).wellFormed = true := by decide
/-- A step over an ill-formed configuration is refused by name, even with `rst = 1`. -/
theorem test_step_refuses_ill_formed :
    step { idleEmpty with cfg := { small with n := 5 }, inputs := [⟨true, false, 0#16, false⟩] }
      = .refused .illFormedConfig := by rfl
/-- An ILLEGAL instruction whose word is CLEAR's is ill formed; one whose word is 0x2001 is not. -/
theorem test_wf_illegal :
    (Instr.illegal 0x2000#16).wellFormed = false ∧ (Instr.illegal 0x10FF#16).wellFormed = false
    ∧ (Instr.illegal 0x2001#16).wellFormed = true := by decide
theorem test_wf_cwDit : (Instr.cwDit 0#15).wellFormed = false ∧ (Instr.cwDit 1#15).wellFormed = true := by decide
theorem test_wf_cwDah : (Instr.cwDah 0#15).wellFormed = false ∧ (Instr.cwDah 1#15).wellFormed = true := by decide
/-- At CW = 8 the remainder has 7 bits (R84). -/
theorem test_fitsCw :
    (Instr.cwDit 0x80#15).fitsCw 8 = false ∧ (Instr.cwDah 0x80#15).fitsCw 8 = false
    ∧ (Instr.cwDit 0x7F#15).fitsCw 8 = true ∧ (Instr.cwDah 0x7F#15).fitsCw 8 = true := by decide

/-! ## Decoding: words written out from R82 and R88 -/

theorem test_decode_nop : decodeTableWord 16 0b0000000000000000 = some .nop := by decide
theorem test_decode_append : decodeTableWord 16 0b0001000011111111 = some (.append 0xFF#8) := by decide
theorem test_decode_clear : decodeTableWord 16 0b0010000000000000 = some .clear := by decide
theorem test_decode_send : decodeTableWord 16 0b0011000000000000 = some .send := by decide
/-- One word of each class of R83. -/
theorem test_decode_illegal :
    decodeTableWord 16 0b0000000000000001 = some (.illegal 0x0001#16)
    ∧ decodeTableWord 16 0b0001000101010011 = some (.illegal 0x1153#16)
    ∧ decodeTableWord 16 0b0011000000000001 = some (.illegal 0x3001#16)
    ∧ decodeTableWord 16 0b0100000000000000 = some (.illegal 0x4000#16) := by decide
theorem test_decode_cwInvalid : decodeTableWord 8 0b00000000 = some .cwInvalid := by decide
theorem test_decode_cwEnd : decodeTableWord 8 0b00000001 = some .cwEnd := by decide
theorem test_decode_cwDit :
    decodeTableWord 8 0b00000010 = some (.cwDit 0b0000001#15)
    ∧ decodeTableWord 8 0b10000000 = some (.cwDit 0b1000000#15) := by decide
theorem test_decode_cwDah :
    decodeTableWord 8 0b00000011 = some (.cwDah 0b0000001#15)
    ∧ decodeTableWord 8 0b11111111 = some (.cwDah 0b1111111#15) := by decide
/-- A width no row has, and a word wider than its row, are rejected by name. -/
theorem test_decode_rejects :
    decodeBits 24 0 = .error .noFormatOfWidth ∧ decodeBits 8 0x100 = .error .wordTooWide
    ∧ decodeTableWord 16 0x10000 = none := by decide

/-! ## Operands -/

/-- R112's corner cases. -/
theorem test_upcase :
    upcase 0x73#8 = 0x53#8 ∧ upcase 0x61#8 = 0x41#8 ∧ upcase 0x7A#8 = 0x5A#8
    ∧ upcase 0x60#8 = 0x60#8 ∧ upcase 0x7B#8 = 0x7B#8 ∧ upcase 0xE0#8 = 0xE0#8 := by decide
/-- R113's example: 'S' has code word 8, '#' is in no table. -/
theorem test_lookup :
    lookup defaultConfig 0x53#8 = 8#16 ∧ lookup defaultConfig 0x4F#8 = 15#16
    ∧ lookup defaultConfig 0x23#8 = 1#16 ∧ lookup defaultConfig 0x20#8 = 1#16 := by decide
/-- 95_test_vectors.md section 2.3: 200 is `...-..-`, 6 is `.-`, 1 and 0 are empty. -/
theorem test_expand :
    expand 200#16 = [.dit, .dit, .dit, .dah, .dit, .dit, .dah] ∧ expand 6#16 = [.dit, .dah]
    ∧ expand 1#16 = [] ∧ expand 0#16 = [] := by decide
/-- R87: `.-` is 6, `---` is 15, the empty sequence is 1. -/
theorem test_collapse :
    collapse [.dit, .dah] = 6 ∧ collapse [.dah, .dah, .dah] = 15 ∧ collapse [] = 1 := by decide

/-! ## One step of each instruction (95_test_vectors.md sections 2.4 and 2.7, programs P1 to P4) -/

theorem test_nop : nextIs (step (offer idleFull 0x0000#16)) idleFull = true := by decide
/-- 0x1073 at `len = 1`: the raw character is stored, status 0x0200. -/
theorem test_append_raw :
    nextAnd (step (offer { idleEmpty with len := 1#8, mb := [(0, 0x53#8)] } 0x1073#16)) (fun t =>
      decide (t.mb = [(0, 0x53#8), (1, 0x73#8)] ∧ t.status = 0x0200#16)) = true := by decide
/-- 0x1041 at `len = MSG_MAX = 2`: dropped, status 0x0208. -/
theorem test_append_full :
    nextAnd (step (offer idleFull 0x1041#16)) (fun t =>
      decide (t.mb = idleFull.mb ∧ t.status = 0x0208#16)) = true := by decide
theorem test_clear :
    nextAnd (step (offer { idleFull with ovf := true, ill := true } 0x2000#16)) (fun t =>
      decide (t.status = 0x0000#16 ∧ t.mb = idleFull.mb)) = true := by decide
/-- P1, edge 3: after SEND `timer` = 1 and status = 0x0303 (W = 2, `len` = 3). -/
theorem test_send :
    nextAnd (step (offer { Machine.State.reset with
        len := 3#8, idx := 3#8, mb := [(0, 0x53#8), (1, 0x4F#8), (2, 0x53#8)] } 0x3000#16)) (fun t =>
      decide (t.phase = .warmup ∧ t.timer = 1 ∧ t.idx = 0#8 ∧ t.status = 0x0303#16)) = true := by decide
theorem test_send_suppressed :
    nextAnd (step (offerSuppressed idleFull)) (fun t => decide (t.status = 0x0200#16 ∧ t.phase = .idle)) = true := by
  decide
theorem test_illegal :
    nextAnd (step (offer idleEmpty 0x1153#16)) (fun t => decide (t.status = 0x0010#16 ∧ t.mb = [])) = true := by
  decide
theorem test_illegal_send_like :
    nextAnd (step (offer idleFull 0x3001#16)) (fun t => decide (t.status = 0x0210#16 ∧ t.phase = .idle)) = true := by
  decide
/-- Section 2.4, 200: `sym` 0 and `sr` 100.  P3, edge 6: 'A' = 6 gives `sr` = 3 and `sym` = 0. -/
theorem test_cwDit :
    nextAnd (exec (decodeCodeWord 200#16) Machine.State.reset) (fun t =>
      decide (t.sym = .dit ∧ t.sr = 100#16 ∧ t.phase = .mark ∧ t.timer = 0)) = true := by decide
theorem test_cwDit_at_character_start :
    nextAnd (step (inSegment .warmup 0 0#8 1#16 .dit)) (fun t =>
      decide (t.phase = .mark ∧ t.sr = 3#16 ∧ t.sym = .dit ∧ t.idx = 0#8 ∧ t.timer = 0)) = true := by decide
/-- Section 2.4, 15: `sym` 1 and `sr` 7. -/
theorem test_cwDah :
    nextAnd (exec (decodeCodeWord 15#16) Machine.State.reset) (fun t =>
      decide (t.sym = .dah ∧ t.sr = 7#16 ∧ t.phase = .mark ∧ t.timer = 2)) = true := by decide
/-- P4, edge 8: 'T' = 3 at DIT_CYCLES = 2 gives MARK with `timer` = 5, `sym` = 1, `sr` = 1. -/
theorem test_cwDah_at_character_start :
    nextAnd (step { idleEmpty with
        cfg := { small with ditCycles := 2, warmupCycles := 3, timerW := 3 }
        phase := .warmup, len := 1#8, mb := [(0, 0x54#8)] }) (fun t =>
      decide (t.phase = .mark ∧ t.timer = 5 ∧ t.sym = .dah ∧ t.sr = 1#16)) = true := by decide
/-- The space of "A " begins a 3 u CHAR_SPACE and leaves `sr` and `sym`. -/
theorem test_cwEnd_at_character_start :
    nextAnd (step (inSegment .letterSpace 0 0#8 1#16 .dah)) (fun t =>
      decide (t.phase = .charSpace ∧ t.timer = 2 ∧ t.idx = 1#8 ∧ t.sr = 1#16 ∧ t.sym = .dah)) = true := by decide
/-- The character is complete at the end of the gap: a 3 u LETTER_SPACE. -/
theorem test_cwEnd_at_gap :
    nextAnd (step (inSegment .elemGap 0 0#8 1#16 .dah)) (fun t =>
      decide (t.phase = .letterSpace ∧ t.timer = 2 ∧ t.idx = 0#8)) = true := by decide
theorem test_cwInvalid_at_gap :
    nextAnd (step (inSegment .elemGap 0 0#8 0#16 .dah)) (fun t =>
      decide (t.phase = .letterSpace ∧ t.timer = 2 ∧ t.sr = 0#16)) = true := by decide
theorem test_cwInvalid_at_character_start :
    nextAnd (exec .cwInvalid (inSegment .warmup 0 0#8 1#16 .dit)) (fun t =>
      decide (t.phase = .charSpace ∧ t.timer = 2)) = true := by decide

/-! ## Placing a word -/

theorem test_fetch_command :
    nextAnd (step (Machine.State.reset.withFetchWord 16 0x1053)) (fun t =>
      decide (t.mb = [(0, 0x53#8)] ∧ t.status = 0x0100#16)) = true := by decide
theorem test_fetch_code_word :
    nextAnd (step (Machine.State.reset.withFetchWord 8 0x0F)) (fun t =>
      decide (t.sym = .dah ∧ t.sr = 7#16 ∧ t.phase = .mark)) = true := by decide

/-! ## The host -/

/-- R92: `SENDMSG "SO"` and a suppressed SEND. -/
theorem test_assemble :
    assemble [.sendMsg [0x53#8, 0x4F#8], .send true]
      = [⟨0x2000#16, false⟩, ⟨0x1053#16, false⟩, ⟨0x104F#16, false⟩, ⟨0x3000#16, false⟩, ⟨0x3000#16, true⟩] := by
  decide
/-- R200: a word offered while busy is still offered at the next edge. -/
theorem test_host_holds :
    offersAfter (inSegment .mark 0 0#8 3#16 .dit).accepts [⟨0x2000#16, false⟩] = [⟨0x2000#16, false⟩] := by decide

/-! ## The clear description of a transmission (95_test_vectors.md section 2.6) -/

/-- "A ": 2 + 4 + 3 units and 6. -/
theorem test_timeline :
    timeline small [0x61#8, 0x23#8]
      = [⟨.warmup, 1⟩, ⟨.mark, 1⟩, ⟨.elemGap, 1⟩, ⟨.mark, 3⟩, ⟨.elemGap, 1⟩, ⟨.letterSpace, 3⟩, ⟨.charSpace, 3⟩,
         ⟨.letterSpace, 3⟩]
    ∧ busyCycles small [0x61#8, 0x23#8] = 16 := by decide

/-! ## Witnesses: a state and operands that meet the hypotheses of each statement

Each theorem is named after its statement.  Where a statement has several clauses, the theorem has one witness for
each, and where it is cheap the clause's conclusion at that witness as well. -/

theorem witness_AdmittedConfigurations :
    small.wellFormed = true ∧ ({ small with n := 0 } : Config).wellFormed = false := by decide

theorem witness_RefusesExactlyIllFormedConfigurations :
    ({ small with n := 0 } : Config).wellFormed = false
    ∧ step { idleEmpty with cfg := { small with n := 0 } } = .refused .illFormedConfig := ⟨by decide, by rfl⟩

theorem witness_StepKeepsConfiguration :
    ∃ t, step (offer idleFull 0x3000#16) = .next t ∧ t.cfg = small := ⟨_, rfl, rfl⟩

/-- A command word, a CW word of the table's width and a CW word wider than it. -/
theorem witness_DecodeOfEncode :
    ((Instr.illegal 0xFFFF#16).wellFormed = true ∧ (Instr.illegal 0xFFFF#16).format = .cmd16)
    ∧ ((Instr.cwDah 0x7F#15).wellFormed = true ∧ (Instr.cwDah 0x7F#15).format = .cw
        ∧ (Instr.cwDah 0x7F#15).fitsCw 8 = true)
    ∧ (Instr.cwDit 0x4000#15).wellFormed = true := by decide

theorem witness_CommandWordDecodesByItsRow :
    (0x0000#16 &&& 0xFFFF#16 = 0x0000#16) ∧ (0x10FF#16 &&& 0xFF00#16 = 0x1000#16)
    ∧ (0x2000#16 &&& 0xFFFF#16 = 0x2000#16) ∧ (0x3000#16 &&& 0xFFFF#16 = 0x3000#16)
    ∧ (0x1100#16 &&& 0xFFFF#16 ≠ 0x0000#16 ∧ 0x1100#16 &&& 0xFF00#16 ≠ 0x1000#16
        ∧ 0x1100#16 &&& 0xFFFF#16 ≠ 0x2000#16 ∧ 0x1100#16 &&& 0xFFFF#16 ≠ 0x3000#16) := by decide

theorem witness_UpcaseMapsLowercaseOnly :
    (0x61 ≤ (0x61#8).toNat ∧ (0x61#8).toNat ≤ 0x7A) ∧ (0x61 ≤ (0x7A#8).toNat ∧ (0x7A#8).toNat ≤ 0x7A)
    ∧ ¬ (0x61 ≤ (0x60#8).toNat ∧ (0x60#8).toNat ≤ 0x7A) ∧ ¬ (0x61 ≤ (0x7B#8).toNat ∧ (0x7B#8).toNat ≤ 0x7A) := by
  decide

/-- The last entry of the table, a duplicate that an unchecked table holds, and a miss. -/
theorem witness_LookupIsLowestIndexElseSpace :
    (small.alphabet[3]? = some 0x41#8 ∧ (∀ j, j < 3 → small.alphabet[j]? ≠ some 0x41#8)
        ∧ small.codes[3]? = some 6#16 ∧ lookup small 0x41#8 = 6#16)
    ∧ lookup { small with alphabet := [0x45#8, 0x45#8] } 0x45#8 = 1#16
    ∧ (0x23#8 ∉ small.alphabet ∧ lookup small 0x23#8 = 1#16)
    ∧ small.conformsAtSpace = true ∧ small.wellFormed = true := by decide

theorem witness_UnknownCharacterHasTheCodeOfSpace :
    small.conformsAtSpace = true ∧ upcase 0x7A#8 ∉ small.alphabet := by decide

/-- The lowercase 'a' has the code word of 'A'. -/
theorem witness_EveryCharacterHasAnAdmittedCode : small.wellFormed = true ∧ codeOf small 0x61#8 = 6#16 := by decide

/-- The shortest and the longest code word of 16 bits. -/
theorem witness_ExpandIsTheBitsBelowTheTerminator :
    2 ≤ (2#16).toNat ∧ expand 2#16 = [.dit] ∧ 2 ≤ (0xFFFF#16).toNat ∧ expand 0xFFFF#16 = List.replicate 15 .dah := by
  decide

/-- L = CW − 1 fits and L = CW does not. -/
theorem witness_CollapseIsTheWeightedSum :
    2 ≤ (2#16).toNat ∧ collapse [.dah, .dah] < 2 ^ 3 ∧ ¬ collapse [.dit, .dit, .dit] < 2 ^ 3 := by decide

theorem witness_ExpandAndCollapseAreInverse :
    2 ≤ (2#16).toNat
    ∧ (List.replicate 15 Symbol.dah ≠ [] ∧ (List.replicate 15 Symbol.dah).length ≤ 15
        ∧ expand (BitVec.ofNat 16 (collapse (List.replicate 15 .dah))) = List.replicate 15 .dah) := by decide

theorem witness_ShiftingReachesTheSentinel :
    (1 ≤ (1#16).toNat ∧ shiftRight1^[0] 1#16 = 1#16 ∧ (1#16).toNat < 2 ^ 1)
    ∧ (1 ≤ (0xFFFF#16).toNat ∧ shiftRight1^[15] 0xFFFF#16 = 1#16 ∧ shiftRight1^[14] 0xFFFF#16 ≠ 1#16
        ∧ shiftRight1^[16] 0xFFFF#16 ≠ 1#16 ∧ (0xFFFF#16).toNat < 2 ^ 16) := by decide

/-- The least symbol step, and the largest of CW = 3. -/
theorem witness_SymbolStepEmitsTheLowBit :
    2 ≤ (2#16).toNat ∧ 2 ≤ (7#16).toNat ∧ (7#16).toNat < 2 ^ small.cw
    ∧ nextIs (exec (decodeCodeWord 7#16) idleFull)
        { idleFull with sym := .dah, sr := 3#16, phase := .mark, timer := 2 } = true := by decide

theorem witness_DitAndDahComplete :
    nextAnd (exec (.cwDit 0x7FFF#15) idleFull) (fun t => decide (t.timer = 0 ∧ t.sr = 0x7FFF#16 ∧ t.sym = .dit)) = true
    ∧ nextAnd (exec (.cwDah 1#15) idleFull) (fun t => decide (t.timer = 2 ∧ t.sr = 1#16 ∧ t.sym = .dah)) = true
    ∧ nextAnd (exec (.cwDit 0#15) idleFull) (fun t => decide (t.timer = 0 ∧ t.sr = 0#16)) = true := by decide

theorem witness_EndOfCodeEntersTheHold :
    nextIs (exec .cwEnd (inSegment .elemGap 0 1#8 1#16 .dit)) (inSegment .letterSpace 2 1#8 1#16 .dit) = true
    ∧ nextIs (exec .cwEnd (inSegment .warmup 0 0#8 1#16 .dit)) (inSegment .charSpace 2 0#8 1#16 .dit) = true
    ∧ nextIs (exec .cwEnd (inSegment .letterSpace 0 1#8 1#16 .dit)) (inSegment .charSpace 2 1#8 1#16 .dit) = true := by
  decide

theorem witness_InvalidBehavesAsEndAndIsUnreachable :
    nextIs (exec .cwInvalid (inSegment .elemGap 0 1#8 1#16 .dit)) (inSegment .letterSpace 2 1#8 1#16 .dit) = true
    ∧ nextIs (exec .cwInvalid (inSegment .warmup 0 0#8 1#16 .dit)) (inSegment .charSpace 2 0#8 1#16 .dit) = true
    ∧ nextIs (exec .cwInvalid (inSegment .letterSpace 0 1#8 1#16 .dit)) (inSegment .charSpace 2 1#8 1#16 .dit) = true
    ∧ (small.wellFormed = true ∧ 0x23#8 ∉ small.alphabet)
    ∧ (2 ≤ (2#16).toNat ∧ nextAnd (exec (decodeCodeWord 2#16) idleFull) (fun t => decide (t.sr = 1#16)) = true) := by
  decide

/-- The last clause, at the least value of `sr`. -/
theorem witness_Invalid_at_the_end_of_a_gap :
    Inv (inSegment .elemGap 0 0#8 1#16 .dit) ∧ (inSegment .elemGap 0 0#8 1#16 .dit).phase = .elemGap
    ∧ decodeCodeWord (inSegment .elemGap 0 0#8 1#16 .dit).sr = .cwEnd := by decide

/-- A segment of one cycle and one of three, up to the edge that ends it. -/
theorem witness_SegmentHoldsForItsLength :
    (small.wellFormed = true ∧ Phase.mark.gate = true ∧ 1 ≤ 1 ∧ NoResetThrough idleFull (1 - 1))
    ∧ (Phase.letterSpace.gate = true ∧ 1 ≤ 3 ∧ NoResetThrough idleFull (3 - 1)
        ∧ nextAnd (run 2 (enter .letterSpace 3 idleFull)) (fun t =>
            decide (t.phase = .letterSpace ∧ t.timer = 0)) = true) := by decide

/-- The end of a segment in each phase, and both ends of a LETTER_SPACE. -/
theorem witness_SegmentsAbut :
    small.wellFormed = true
    ∧ nextAnd (endOfSegment (inSegment .warmup 0 0#8 1#16 .dit)) (fun t => decide (t.phase = .mark)) = true
    ∧ nextAnd (endOfSegment (inSegment .mark 0 0#8 3#16 .dit)) (fun t => decide (t.phase = .elemGap)) = true
    ∧ nextAnd (endOfSegment (inSegment .elemGap 0 0#8 3#16 .dit)) (fun t => decide (t.phase = .mark)) = true
    ∧ nextAnd (endOfSegment (inSegment .charSpace 0 1#8 1#16 .dit)) (fun t => decide (t.phase = .letterSpace)) = true
    ∧ nextAnd (endOfSegment (inSegment .letterSpace 0 0#8 1#16 .dit)) (fun t => decide (t.phase = .charSpace)) = true
    ∧ nextAnd (endOfSegment (inSegment .letterSpace 0 1#8 1#16 .dit)) (fun t => decide (t.phase = .idle)) = true := by
  decide

/-- The gate rises at a SEND, falls at the end of a message, at that of an empty one and at a reset. -/
theorem witness_GateRisesAtSendAndFallsAtTheEnd :
    (AcceptsSend (offer idleFull 0x3000#16)
        ∧ nextAnd (step (offer idleFull 0x3000#16)) (fun t => t.gateOut) = true)
    ∧ nextAnd (step (inSegment .letterSpace 0 1#8 1#16 .dit)) (fun t => !t.gateOut) = true
    ∧ nextAnd (step { idleEmpty with phase := .warmup }) (fun t => !t.gateOut) = true
    ∧ nextAnd (step { inSegment .mark 0 0#8 3#16 .dit with inputs := [⟨true, false, 0#16, false⟩] })
        (fun t => !t.gateOut) = true := by decide

theorem witness_StepTakesOneOfFourBranches :
    small.wellFormed = true
    ∧ ({ idleFull with inputs := [⟨true, true, 0#16, false⟩] } : Machine.State).sampled.rst = true
    ∧ (idleFull.sampled.rst = false ∧ idleFull.phase = .idle)
    ∧ ((inSegment .mark 2 0#8 3#16 .dah).sampled.rst = false ∧ (inSegment .mark 2 0#8 3#16 .dah).phase.gate = true)
    ∧ nextIs (step { idleFull with phase := .unused6 }) idleFull = true
    ∧ nextIs (step { idleFull with phase := .unused7, timer := 3 }) { idleFull with timer := 3 } = true := by decide

/-- An accepted word; a gap that ends; the first and the last character of the message. -/
theorem witness_StepRunsTheDecodedInstruction :
    small.wellFormed = true ∧ (offer idleFull 0x2000#16).accepts = true
    ∧ ((inSegment .elemGap 0 0#8 3#16 .dit).sampled.rst = false ∧ (inSegment .elemGap 0 0#8 3#16 .dit).timer = 0)
    ∧ ((inSegment .warmup 0 0#8 1#16 .dit).phase = .warmup ∧ 0#8 ≠ (inSegment .warmup 0 0#8 1#16 .dit).len
        ∧ Memory.read (inSegment .warmup 0 0#8 1#16 .dit).mb (0#8).toNat = some 0x41#8)
    ∧ ((inSegment .letterSpace 0 0#8 1#16 .dit).phase = .letterSpace
        ∧ 1#8 = (inSegment .letterSpace 0 0#8 1#16 .dit).idx + 1#8 ∧ 1#8 ≠ (inSegment .letterSpace 0 0#8 1#16 .dit).len
        ∧ (1#8).toNat < small.msgMax
        ∧ Memory.read (inSegment .letterSpace 0 0#8 1#16 .dit).mb (1#8).toNat = some 0x20#8) := by decide

/-- No character left; a space; a symbol.  A code word 0 only in a table that R111 refuses. -/
theorem witness_StartCharEndsSpacesOrEmits :
    nextIs (startChar 2#8 (inSegment .letterSpace 0 1#8 1#16 .dit)) (inSegment .idle 0 2#8 1#16 .dit) = true
    ∧ (lookup small (upcase 0x20#8) = 1#16
        ∧ nextIs (startChar 1#8 (inSegment .letterSpace 0 0#8 1#16 .dit)) (inSegment .charSpace 2 1#8 1#16 .dit) = true)
    ∧ (lookup small (upcase 0x41#8) = 6#16 ∧ 2 ≤ (6#16).toNat
        ∧ nextIs (startChar 0#8 (inSegment .warmup 0 0#8 1#16 .dah)) (inSegment .mark 0 0#8 3#16 .dit) = true)
    ∧ lookup { small with codes := [1#16, 2#16, 3#16, 0#16] } (upcase 0x41#8) = 0#16
    ∧ (Inv (inSegment .letterSpace 0 0#8 1#16 .dit)
        ∧ (1#8).toNat < (inSegment .letterSpace 0 0#8 1#16 .dit).len.toNat) := by decide

theorem witness_EndOfMarkAndOfCharSpace :
    nextIs (step (inSegment .mark 0 0#8 3#16 .dit)) (inSegment .elemGap 0 0#8 3#16 .dit) = true
    ∧ nextIs (step (inSegment .charSpace 0 1#8 1#16 .dit)) (inSegment .letterSpace 2 1#8 1#16 .dit) = true := by decide

theorem witness_EndOfGapEmitsTheNextSymbolOrEndsTheCharacter :
    nextIs (step (inSegment .elemGap 0 0#8 1#16 .dah)) (inSegment .letterSpace 2 0#8 1#16 .dah) = true
    ∧ nextIs (step (inSegment .elemGap 0 0#8 0#16 .dah)) (inSegment .letterSpace 2 0#8 0#16 .dah) = true
    ∧ nextIs (step (inSegment .elemGap 0 0#8 2#16 .dah)) (inSegment .mark 0 0#8 1#16 .dit) = true := by decide

theorem witness_EndOfWarmupAndOfLetterSpaceStartACharacter :
    ((inSegment .warmup 0 0#8 1#16 .dit).cfg.wellFormed = true
        ∧ (inSegment .warmup 0 0#8 1#16 .dit).sampled.rst = false)
    ∧ (inSegment .letterSpace 0 1#8 1#16 .dit).sampled.rst = false
    ∧ (Inv (inSegment .letterSpace 0 1#8 1#16 .dit) ∧ (inSegment .letterSpace 0 1#8 1#16 .dit).phase = .letterSpace) := by
  decide

/-- "A " under `small` takes 16 cycles. -/
theorem witness_TransmissionFollowsTheTimeline :
    Inv (offer idleFull 0x3000#16) ∧ AcceptsSend (offer idleFull 0x3000#16)
    ∧ (phaseTrace (timeline small (message (offer idleFull 0x3000#16)))).length = 16
    ∧ NoResetThrough (offer idleFull 0x3000#16) 16
    ∧ (phaseTrace (timeline small (message (offer idleFull 0x3000#16))))[0]? = some .warmup
    ∧ (phaseTrace (timeline small (message (offer idleFull 0x3000#16))))[15]? = some .letterSpace
    ∧ nextAnd (run 16 (offer idleFull 0x3000#16)) (fun t => decide (t.phase = .letterSpace ∧ t.timer = 0)) = true
    ∧ nextAnd (run 17 (offer idleFull 0x3000#16)) (fun t => decide (t.phase = .idle)) = true := by decide

theorem witness_TransmissionIsBusyForExactlyB :
    Inv (offer idleFull 0x3000#16) ∧ AcceptsSend (offer idleFull 0x3000#16)
    ∧ busyCycles small (message (offer idleFull 0x3000#16)) = 16
    ∧ NoResetThrough (offer idleFull 0x3000#16) 16 := by decide

theorem witness_EmptyMessageHoldsTheGateForTheWarmup :
    (offer idleEmpty 0x3000#16).cfg.wellFormed = true ∧ (offer idleEmpty 0x3000#16).len = 0#8
    ∧ AcceptsSend (offer idleEmpty 0x3000#16) ∧ NoResetThrough (offer idleEmpty 0x3000#16) small.warmupCycles := by
  decide

theorem witness_BusyEdgeIgnoresTheCommandPort :
    (inSegment .mark 0 0#8 3#16 .dit).phase ≠ .idle ∧ (⟨false, true, 0x2000#16, true⟩ : Inputs).rst = false
    ∧ Inputs.quiet.rst = false := by decide

theorem witness_BusyEdgeKeepsMessageAndFlags :
    (offer (inSegment .mark 0 0#8 3#16 .dit) 0x2000#16).phase ≠ .idle
    ∧ (offer (inSegment .mark 0 0#8 3#16 .dit) 0x2000#16).sampled.rst = false
    ∧ nextAnd (step (offer (inSegment .mark 0 0#8 3#16 .dit) 0x2000#16)) (fun t => decide (t.len = 2#8)) = true := by
  decide

/-- The second state holds what an earlier transmission and an overflow left. -/
theorem witness_RepeatedSendsAreIdentical :
    Inv (offer idleFull 0x3000#16)
    ∧ Inv (offer { idleFull with idx := 2#8, sr := 3#16, sym := .dah, ovf := true } 0x3000#16)
    ∧ message (offer idleFull 0x3000#16)
        = message (offer { idleFull with idx := 2#8, sr := 3#16, sym := .dah, ovf := true } 0x3000#16)
    ∧ AcceptsSend (offer { idleFull with idx := 2#8, sr := 3#16, sym := .dah, ovf := true } 0x3000#16)
    ∧ NoResetThrough (offer { idleFull with idx := 2#8, sr := 3#16, sym := .dah, ovf := true } 0x3000#16) 16 := by
  decide

theorem witness_HandshakeDecidesAcceptance :
    small.wellFormed = true ∧ (offer idleFull 0x2000#16).accepts = true
    ∧ (offer (inSegment .mark 0 0#8 3#16 .dit) 0x2000#16).accepts = false ∧ idleFull.accepts = false := by decide

/-- The last free entry, and the full buffer. -/
theorem witness_AppendStoresAtLenOrDrops :
    ({ idleFull with len := 1#8 } : Machine.State).len.toNat < small.msgMax
    ∧ small.msgMax ≤ idleFull.len.toNat ∧ small.wellFormed = true := by decide

theorem witness_SendEntersWarmup :
    (offer idleFull 0x3000#16).sampled.suppress = false
    ∧ nextAnd (exec .send (offer { idleFull with idx := 2#8 } 0x3000#16)) (fun t =>
        decide (t.phase = .warmup ∧ t.idx = 0#8 ∧ t.timer = 0)) = true := by decide

theorem witness_SuppressedSendIsANoOp :
    (offerSuppressed idleFull).sampled.suppress = true ∧ (offerSuppressed idleFull).accepts = true
    ∧ decodeCommand (offerSuppressed idleFull).sampled.cmd = .send ∧ small.wellFormed = true := by decide

/-- Two APPENDs fill the empty buffer of `small`. -/
theorem witness_AppendsBuildTheMessageInOrder :
    Inv { idleEmpty with inputs := [⟨false, true, 0x1045#16, true⟩, ⟨false, true, 0x1054#16, false⟩] }
    ∧ idleEmpty.len.toNat + [0x45#8, 0x54#8].length ≤ small.msgMax
    ∧ 0x1045#16 = 0x1000#16 ||| (0x45#8).setWidth 16 ∧ 0x1054#16 = 0x1000#16 ||| (0x54#8).setWidth 16
    ∧ nextAnd (run 2 { idleEmpty with inputs := [⟨false, true, 0x1045#16, true⟩, ⟨false, true, 0x1054#16, false⟩] })
        (fun t => decide (message t = [0x45#8, 0x54#8])) = true := by decide

theorem witness_OutputsAreDecodedFromPhase : Inv idleFull ∧ Inv (inSegment .mark 2 0#8 1#16 .dah) := by decide

/-- Each of the two flags set, kept and cleared. -/
theorem witness_StickyFlagsAreSetAndClearedOnlySo :
    nextAnd (step (offer idleFull 0x1041#16)) (fun t => t.ovf) = true
    ∧ nextAnd (step (offer idleFull 0x4000#16)) (fun t => t.ill) = true
    ∧ nextAnd (step { inSegment .mark 0 0#8 3#16 .dit with ovf := true, ill := true }) (fun t => t.ovf && t.ill) = true
    ∧ nextAnd (step (offer { idleFull with ovf := true, ill := true } 0x2000#16)) (fun t => !t.ovf && !t.ill) = true := by
  decide

theorem witness_IdxMovesOnlySo :
    nextAnd (step (inSegment .letterSpace 0 0#8 1#16 .dit)) (fun t => decide (t.idx = 1#8)) = true
    ∧ nextAnd (step (offer { idleFull with idx := 2#8 } 0x3000#16)) (fun t => decide (t.idx = 0#8)) = true
    ∧ nextAnd (step (inSegment .letterSpace 1 1#8 1#16 .dit)) (fun t => decide (t.idx = 1#8)) = true := by decide

theorem witness_UnpackerRegistersChangeOnlyAtAMark :
    (inSegment .elemGap 0 0#8 3#16 .dit).sampled.rst = false
    ∧ nextAnd (step (inSegment .elemGap 0 0#8 3#16 .dit)) (fun t => decide (t.sr = 1#16 ∧ t.sym = .dah)) = true := by
  decide

theorem witness_BufferChangesOnlyByAppendAtLen :
    nextAnd (step (offer { idleFull with len := 1#8 } 0x1054#16)) (fun t =>
      decide (Memory.read t.mb 1 = some 0x54#8 ∧ Memory.read t.mb 0 = some 0x41#8)) = true := by decide

/-- The invariant in each phase of a transmission. -/
theorem witness_Inv_in_phases :
    Inv (inSegment .warmup 0 0#8 1#16 .dit) ∧ Inv (inSegment .mark 2 0#8 1#16 .dah)
    ∧ Inv (inSegment .charSpace 2 1#8 1#16 .dah) ∧ Inv (inSegment .letterSpace 2 0#8 1#16 .dah) :=
  ⟨by decide, by decide, by decide, by decide⟩

/-- An edge inside a character, and IDLE after a CLEAR that left `idx` above `len` (P3). -/
theorem witness_StepKeepsTheInvariant :
    Inv (inSegment .elemGap 0 0#8 3#16 .dit) ∧ Inv { idleFull with idx := 2#8, len := 0#8 }
    ∧ nextAnd (step (inSegment .elemGap 0 0#8 3#16 .dit)) (fun t => decide (Inv t)) = true := by decide

/-- `idleFull` with one character, and with other values in every hidden register and in the entry at `len`. -/
def oneCharacter : Machine.State := { idleFull with len := 1#8 }
def oneCharacterOther : Machine.State :=
  { oneCharacter with idx := 2#8, sr := 7#16, sym := .dah, timer := 3, mb := [(0, 0x41#8), (1, 0x54#8)] }

/-- Between transmissions: a difference in every hidden register and in an entry at `len`. -/
theorem witness_HiddenStateNeverReachesAnOutput :
    Inv oneCharacter ∧ Inv oneCharacterOther ∧ SameVisible oneCharacter oneCharacterOther :=
  ⟨by decide, by decide, by decide⟩

/-- While a hold runs: a difference in `sr` and `sym`. -/
theorem witness_HiddenState_in_a_hold :
    Inv (inSegment .letterSpace 1 0#8 1#16 .dit) ∧ Inv (inSegment .letterSpace 1 0#8 3#16 .dah)
    ∧ SameVisible (inSegment .letterSpace 1 0#8 1#16 .dit) (inSegment .letterSpace 1 0#8 3#16 .dah) :=
  ⟨by decide, by decide, by decide⟩

theorem witness_NoStepStops :
    Inv (inSegment .letterSpace 0 0#8 1#16 .dit)
    ∧ nextAnd (step { inSegment .letterSpace 0 0#8 1#16 .dit with inputs := [⟨false, true, 0xFFFF#16, true⟩] })
        (fun t => decide (t.phase = .charSpace)) = true := by decide

/-- Reset in the middle of a MARK (P4, edge 10), with a command offered. -/
theorem witness_ResetEdgeLoadsTheResetValues :
    ({ inSegment .mark 2 0#8 1#16 .dah with inputs := [⟨true, true, 0x3000#16, false⟩] } : Machine.State).sampled.rst = true
    ∧ nextAnd (step { inSegment .mark 2 0#8 1#16 .dah with inputs := [⟨true, true, 0x3000#16, false⟩] }) (fun t =>
        decide (t.status = 0x0000#16 ∧ t.keyOut = false ∧ t.len = 0#8 ∧ t.mb = idleFull.mb)) = true := by decide

theorem witness_AcceptedCommandTakesOneEdge :
    ((offer idleFull 0x0000#16).accepts = true ∧ decodeCommand (offer idleFull 0x0000#16).sampled.cmd ≠ .send)
    ∧ ((offerSuppressed idleFull).accepts = true ∧ (offerSuppressed idleFull).sampled.suppress = true)
    ∧ ((offer idleFull 0x3000#16).accepts = true ∧ decodeCommand (offer idleFull 0x3000#16).sampled.cmd = .send
        ∧ (offer idleFull 0x3000#16).sampled.suppress = false) := by decide

end Sys2Proof.Tests
end

section
/-! PROOFS. The statements of 00_scope.md: which configurations the model admits, that a step refuses exactly the
others, that no step changes the configuration, and that the state after reset meets the invariant. -/

namespace Sys2Proof.Machine

/-! ## Each check of a configuration as a plain fact -/

theorem rangesOk_iff (c : Config) : c.rangesOk = true ↔
    (1 ≤ c.n ∧ c.n ≤ 256) ∧ (2 ≤ c.cw ∧ c.cw ≤ 16) ∧ 1 ≤ c.ditCycles ∧ 1 ≤ c.warmupCycles
      ∧ (1 ≤ c.msgMax ∧ c.msgMax ≤ 255) ∧ 0 < c.clkHz ∧ 0 < c.wpm := by
  simp only [Config.rangesOk, Bool.and_eq_true, decide_eq_true_eq]

theorem timerFits_iff (c : Config) :
    c.timerFits = true ↔ max (3 * c.ditCycles) c.warmupCycles - 1 < 2 ^ c.timerW := by
  simp only [Config.timerFits, decide_eq_true_eq]

theorem lockStep_iff (c : Config) : c.lockStep = true ↔ c.alphabet.length = c.n ∧ c.codes.length = c.n := by
  simp only [Config.lockStep, Bool.and_eq_true, decide_eq_true_eq]

theorem codesNonzero_iff (c : Config) : c.codesNonzero = true ↔ ∀ v ∈ c.codes, v ≠ 0#16 := by
  simp only [Config.codesNonzero, List.all_eq_true, decide_eq_true_eq]

theorem codesFit_iff (c : Config) : c.codesFit = true ↔ ∀ v ∈ c.codes, v.toNat < 2 ^ c.cw := by
  simp only [Config.codesFit, List.all_eq_true, decide_eq_true_eq]

theorem alphabetDistinct_iff (c : Config) : c.alphabetDistinct = true ↔ c.alphabet.Nodup :=
  distinctChars_iff_nodup c.alphabet

theorem alphabetNoLowercase_iff (c : Config) :
    c.alphabetNoLowercase = true ↔ ∀ a ∈ c.alphabet, ¬ (0x61 ≤ a.toNat ∧ a.toNat ≤ 0x7A) := by
  simp only [Config.alphabetNoLowercase, List.all_eq_true, Bool.or_eq_true, decide_eq_true_eq, not_and_or, not_le]

/-- Settles O1: each of the seven checks is its clause of R6, R9 or R111. -/
theorem admittedConfigurations : Obligations.AdmittedConfigurations := by
  intro c
  rw [wellFormed_parts, rangesOk_iff, timerFits_iff, lockStep_iff, codesNonzero_iff, codesFit_iff,
    alphabetDistinct_iff, alphabetNoLowercase_iff]
  simp only [and_assoc]

/-! ## No part of a clock edge refuses -/

/-- A character start ends the message, runs a decoded code word, or faults on the buffer. -/
theorem startChar_ne_refused (i : BitVec 8) (s : State) (r : Refusal) : startChar i s ≠ .refused r := by
  unfold startChar
  split
  · simp
  · split
    · simp [exec_codeWord]
    · simp

theorem endOfSegment_ne_refused (s : State) (r : Refusal) : endOfSegment s ≠ .refused r := by
  unfold endOfSegment
  cases s.phase
  case warmup => exact startChar_ne_refused _ s r
  case letterSpace => exact startChar_ne_refused _ s r
  case elemGap => simp [exec_codeWord]
  all_goals simp

theorem runSegment_ne_refused (s : State) (r : Refusal) : runSegment s ≠ .refused r := by
  unfold runSegment
  split
  · simp
  · exact endOfSegment_ne_refused s r

theorem idleEdge_ne_refused (s : State) (r : Refusal) : idleEdge s ≠ .refused r := by
  unfold idleEdge executeCommand
  split
  · obtain ⟨t, ht, -⟩ := exec_command_cases s.sampled.cmd s
    simp [ht]
  · simp

theorem clockEdge_ne_refused (s : State) (r : Refusal) : clockEdge s ≠ .refused r := by
  cases hr : s.sampled.rst with
  | true => simp [clockEdge_reset hr]
  | false =>
    rcases phase_branches s with hp | hp | hp
    · rw [clockEdge_idle hr hp]; exact idleEdge_ne_refused s r
    · rw [clockEdge_segment hr hp]; exact runSegment_ne_refused s r
    · simp [clockEdge_unused hr hp]

/-- R9: an ill-formed configuration is refused before anything else is looked at. -/
theorem step_of_illFormed {s : State} (h : s.cfg.wellFormed = false) : step s = .refused .illFormedConfig := by
  simp [step, guardedEdge, h]

theorem step_of_wellFormed {s : State} (h : s.cfg.wellFormed = true) : step s = mapNext dropInput (clockEdge s) := by
  simp [step, guardedEdge, edgeOutcome, h]

/-- Moving the inputs on makes no refusal. -/
theorem mapNext_eq_refused {f : State → State} {o : Host.Outcome State Fault Refusal} {r : Refusal}
    (h : mapNext f o = .refused r) : o = .refused r := by
  cases o with
  | next u => simp at h
  | fault q => simp at h
  | refused q => simpa using h

theorem step_ne_refused {s : State} (h : s.cfg.wellFormed = true) (r : Refusal) : step s ≠ .refused r := by
  rw [step_of_wellFormed h]
  exact fun hr => clockEdge_ne_refused s r (mapNext_eq_refused hr)

/-- Settles O2: the guard refuses an ill-formed configuration, and no clock edge behind it refuses. -/
theorem refusesExactlyIllFormedConfigurations : Obligations.RefusesExactlyIllFormedConfigurations := by
  intro s
  refine ⟨step_of_illFormed, fun r hr => ?_⟩
  rw [← Bool.not_eq_true]
  exact fun hw => step_ne_refused hw r hr

/-! ## Every part of a clock edge keeps the configuration -/

@[simp] theorem endOfCode_cfg (s : State) : (endOfCode s).cfg = s.cfg := by
  unfold endOfCode
  split <;> simp

/-- The effect of an accepted command word. -/
theorem exec_command_cfg {w : CmdWord} {s t : State} (h : exec (decodeCommand w) s = .next t) : t.cfg = s.cfg := by
  obtain ⟨u, hu, hcases⟩ := exec_command_cases w s
  obtain rfl : u = t := by simpa [hu] using h
  rcases hcases with rfl | ⟨c, -, -, rfl⟩ | ⟨c, -, -, rfl⟩ | ⟨-, rfl⟩ | ⟨-, -, rfl⟩ | ⟨-, rfl⟩ <;> simp

/-- The effect of a decoded code word. -/
theorem exec_codeWord_cfg {v : CodeWord} {s t : State} (h : exec (decodeCodeWord v) s = .next t) :
    t.cfg = s.cfg := by
  rw [exec_codeWord] at h
  obtain rfl : _ = t := Host.Outcome.next.inj h
  split <;> simp

theorem startChar_cfg {i : BitVec 8} {s t : State} (h : startChar i s = .next t) : t.cfg = s.cfg := by
  rcases startChar_cases h with ⟨-, rfl⟩ | ⟨-, -, c, -, hexec⟩
  · simp
  · simpa using exec_codeWord_cfg hexec

theorem endOfSegment_cfg {s t : State} (hp : InSegment s) (h : endOfSegment s = .next t) : t.cfg = s.cfg := by
  rcases endOfSegment_cases hp h with ⟨-, hstart⟩ | ⟨-, rfl⟩ | ⟨-, hexec⟩ | ⟨-, rfl⟩ | ⟨-, hstart⟩
  · exact startChar_cfg hstart
  · simp
  · exact exec_codeWord_cfg hexec
  · simp
  · exact startChar_cfg hstart

theorem clockEdge_cfg {s u : State} (h : clockEdge s = .next u) : u.cfg = s.cfg := by
  rcases clockEdge_cases h with ⟨-, rfl⟩ | ⟨-, -, -, rfl⟩ | ⟨-, -, -, hexec⟩ | ⟨-, -, -, rfl⟩ | ⟨-, hp, -, hend⟩
    | ⟨-, -, rfl⟩
  · simp
  · rfl
  · exact exec_command_cfg hexec
  · simp
  · exact endOfSegment_cfg hp hend
  · rfl

theorem step_cfg {s t : State} (h : step s = .next t) : t.cfg = s.cfg := by
  obtain ⟨-, u, hu, rfl⟩ := step_next h
  simpa using clockEdge_cfg hu

/-- Settles O3: a step that answers is a clock edge, and each of its branches keeps `cfg`. -/
theorem stepKeepsConfiguration : Obligations.StepKeepsConfiguration := fun _ _ => step_cfg

/-! ## The state after reset -/

/-- A reset over an admitted configuration with a canonical buffer gives a state that meets the invariant: IDLE has no
segment, no message and the least registers. -/
theorem inv_resetRegisters {s : State} (hw : s.cfg.wellFormed = true) (hb : BufferOk s) : Inv (resetRegisters s) := by
  have hcw : s.cfg.cw ≠ 0 := by have := ranges_of_wellFormed hw; omega
  have hwidths : WidthsKept (resetRegisters s) := ⟨by simpa using Nat.one_lt_two_pow hcw, by simp⟩
  refine ⟨hw, ?phase, ?bounds, ?symbol, ?space, ?timer, ?gate, hwidths, hb, ?written⟩
  case phase => simp [PhaseLegal]
  case bounds => simp [IndexBounds]
  case symbol => simp [SymbolInProgress]
  case space => simp [SpaceInProgress]
  case timer => simp [TimerInSegment]
  case gate => rfl
  case written => simp [MessageWritten]

/-- The configuration of `State.reset` is an admitted one (notes/assumptions/2.md). -/
theorem wellFormed_defaultConfig : defaultConfig.wellFormed = true := by decide

/-- Settles O54: the state after reset is what a reset makes of itself, and its buffer is empty. -/
theorem resetMeetsTheInvariant : Obligations.ResetMeetsTheInvariant :=
  inv_resetRegisters (s := State.reset) wellFormed_defaultConfig ⟨rfl, rfl⟩

end Sys2Proof.Machine
end


section
/-! PROOFS. Rules that the statements of 10_state.md share: the meanings as equations, what a command and a decoded
code word can do, said by cases, and the bounds of an admitted configuration. -/

namespace Sys2Proof.Machine

/-! ## Host commands -/

theorem decodeCommand_format (w : CmdWord) : (decodeCommand w).format = .cmd16 := by
  unfold decodeCommand
  split_ifs <;> rfl

theorem exec_append_of_room {c : Byte} {s : State} (h : s.len.toNat < s.cfg.msgMax) :
    exec (.append c) s = .next { s with mb := Memory.write s.mb s.len.toNat c, len := s.len + 1#8 } := if_pos h

theorem exec_append_of_full {c : Byte} {s : State} (h : ¬ s.len.toNat < s.cfg.msgMax) :
    exec (.append c) s = .next (setOvf s) := if_neg h

theorem exec_send_of_suppressed {s : State} (h : s.sampled.suppress = true) : exec .send s = .next s := if_pos h

theorem exec_send_of_unsuppressed {s : State} (h : s.sampled.suppress = false) :
    exec .send s = .next (enter .warmup s.cfg.warmupCycles { s with idx := 0#8 }) :=
  if_neg (by simp [h])

/-- What a command does once accepted, one constructor per outcome (R201 to R206).  Unlike `exec_command_cases` it keeps
the instruction of the outcomes that change nothing. -/
inductive CommandEffect (s : State) : Instr → State → Prop
  | nop : CommandEffect s .nop s
  | store (c : Byte) (hroom : s.len.toNat < s.cfg.msgMax) :
      CommandEffect s (.append c) { s with mb := Memory.write s.mb s.len.toNat c, len := s.len + 1#8 }
  | drop (c : Byte) (hfull : ¬ s.len.toNat < s.cfg.msgMax) : CommandEffect s (.append c) (setOvf s)
  | clear : CommandEffect s .clear { clearFlags s with len := 0#8 }
  | suppressed (hsup : s.sampled.suppress = true) : CommandEffect s .send s
  | send (hsup : s.sampled.suppress = false) :
      CommandEffect s .send (enter .warmup s.cfg.warmupCycles { s with idx := 0#8 })
  | illegal (w : CmdWord) : CommandEffect s (.illegal w) (setIll s)

/-- Every host command runs to a next state, and its effect is one of these. -/
theorem exec_hostCommand {i : Instr} (s : State) (hi : i.format = .cmd16) :
    ∃ t, exec i s = .next t ∧ CommandEffect s i t := by
  cases i with
  | nop => exact ⟨s, rfl, .nop⟩
  | append c =>
    by_cases hroom : s.len.toNat < s.cfg.msgMax
    · exact ⟨_, exec_append_of_room hroom, .store c hroom⟩
    · exact ⟨_, exec_append_of_full hroom, .drop c hroom⟩
  | clear => exact ⟨_, rfl, .clear⟩
  | send =>
    cases hsup : s.sampled.suppress with
    | true => exact ⟨s, exec_send_of_suppressed hsup, .suppressed hsup⟩
    | false => exact ⟨_, exec_send_of_unsuppressed hsup, .send hsup⟩
  | illegal w => exact ⟨_, rfl, .illegal w⟩
  | cwInvalid => simp [Instr.format] at hi
  | cwEnd => simp [Instr.format] at hi
  | cwDit r => simp [Instr.format] at hi
  | cwDah r => simp [Instr.format] at hi

theorem commandEffect_of_exec {w : CmdWord} {s t : State} (h : exec (decodeCommand w) s = .next t) :
    CommandEffect s (decodeCommand w) t := by
  obtain ⟨u, hu, heffect⟩ := exec_hostCommand s (decodeCommand_format w)
  obtain rfl : u = t := by simpa [hu] using h
  exact heffect

/-! ## The end of each segment -/

theorem endOfSegment_warmup {s : State} (h : s.phase = .warmup) : endOfSegment s = startChar 0#8 s := by
  simp [endOfSegment, h]

theorem endOfSegment_mark {s : State} (h : s.phase = .mark) :
    endOfSegment s = .next (enter .elemGap (gapCycles s.cfg) s) := by
  simp [endOfSegment, h]

theorem endOfSegment_elemGap {s : State} (h : s.phase = .elemGap) :
    endOfSegment s = exec (decodeCodeWord s.sr) s := by
  simp [endOfSegment, h]

theorem endOfSegment_charSpace {s : State} (h : s.phase = .charSpace) :
    endOfSegment s = .next (enter .letterSpace (letterCycles s.cfg) s) := by
  simp [endOfSegment, h]

theorem endOfSegment_letterSpace {s : State} (h : s.phase = .letterSpace) :
    endOfSegment s = startChar (s.idx + 1#8) s := by
  simp [endOfSegment, h]

/-! ## Busy phases -/

theorem InSegment.phase_ne_idle {s : State} (h : InSegment s) : s.phase ≠ .idle := by
  intro hidle
  simp [InSegment, hidle] at h

theorem accepts_eq_false_of_busy {s : State} (hp : s.phase ≠ .idle) : s.accepts = false := by
  rw [← Bool.not_eq_true, accepts_iff]
  exact fun ⟨_, _, hidle⟩ => hp hidle

/-! ## Decoded code words -/

/-- R133: which hold an end of code enters. -/
theorem endOfCode_cases (s : State) :
    (s.phase = .elemGap ∧ endOfCode s = enter .letterSpace (letterCycles s.cfg) s) ∨
    (s.phase ≠ .elemGap ∧ endOfCode s = enter .charSpace (letterCycles s.cfg) s) := by
  unfold endOfCode
  by_cases h : s.phase = .elemGap <;> simp [h]

/-- R88: a code word that is neither 0 nor 1 has a symbol. -/
theorem two_le_codeWord {v : CodeWord} (h : ¬ (v = 0#16 ∨ v = 1#16)) : 2 ≤ v.toNat := by
  by_contra hlt
  exact h (by bv_omega)

/-- What a decoded code word does when it answers a next state: the end of the code, or a symbol step. -/
theorem exec_codeWord_cases {v : CodeWord} {s t : State} (h : exec (decodeCodeWord v) s = .next t) :
    ((v = 0#16 ∨ v = 1#16) ∧ t = endOfCode s) ∨ (2 ≤ v.toNat ∧ t = unpackStep v s) := by
  rw [exec_codeWord] at h
  obtain rfl : _ = t := Host.Outcome.next.inj h
  by_cases hv : v = 0#16 ∨ v = 1#16
  · exact .inl ⟨hv, if_pos hv⟩
  · exact .inr ⟨two_le_codeWord hv, if_neg hv⟩

/-! ## Bounds of an admitted configuration -/

/-- WF3 (R111) and R114: a character's code word has at most CW bits. -/
theorem codeOf_lt {cfg : Config} (hw : cfg.wellFormed = true) (c : Byte) : (codeOf cfg c).toNat < 2 ^ cfg.cw := by
  rcases lookupIn_space_or_mem cfg.alphabet cfg.codes (upcase c) with h | h
  · have hcw : cfg.cw ≠ 0 := by have := ranges_of_wellFormed hw; omega
    rw [codeOf, lookup, h]
    exact Nat.one_lt_two_pow hcw
  · exact (codes_of_wellFormed hw _ h).2

/-- R6: the length of every segment, less 1, fits the timer. -/
theorem dur_fits {cfg : Config} (hw : cfg.wellFormed = true) {p : Phase} {sym : Symbol} {d : Nat}
    (hd : dur cfg p sym = some d) : d - 1 < 2 ^ cfg.timerW := by
  obtain ⟨hunits, hwarmup⟩ := timer_of_wellFormed hw
  cases p <;> cases sym <;> simp [dur] at hd <;> omega

end Sys2Proof.Machine
end

section
/-! PROOFS. Every step keeps the invariant (R47, R31, R71).  The part of the invariant that no change of `phase` or
`timer` touches is named on its own; the rest is then proved once for a state that enters a segment and once for a
state in IDLE, and every branch of a clock edge ends in one of the two. -/

namespace Sys2Proof.Machine

/-! ## The registers beside `phase` and `timer` -/

/-- The part of the invariant that reads neither `phase` nor `timer`: an admitted configuration, the bounds of `len`,
`idx` and `sr`, the buffer and the written message. -/
structure RegistersOk (s : State) : Prop where
  wellFormed : s.cfg.wellFormed = true
  len_le : s.len.toNat ≤ s.cfg.msgMax
  idx_le : s.idx.toNat ≤ s.cfg.msgMax
  sr_lt : s.sr.toNat < 2 ^ s.cfg.cw
  buffer : BufferOk s
  written : MessageWritten s

theorem registersOk_of_inv {s : State} (h : Inv s) : RegistersOk s := by
  obtain ⟨hw, -, ⟨hlen, hidx, -⟩, -, -, -, -, ⟨hsr, -⟩, hbuf, hmsg⟩ := h
  exact ⟨hw, hlen, hidx, hsr, hbuf, hmsg⟩

/-- `len` and `idx` are below 256 with room for one more: MSG_MAX ≤ 255 (R6). -/
theorem RegistersOk.msgMax_le {s : State} (h : RegistersOk s) : s.cfg.msgMax ≤ 255 := by
  have := ranges_of_wellFormed h.wellFormed
  omega

/-- R34: `idx + 1` does not wrap while `idx` is below `len`. -/
theorem RegistersOk.toNat_idx_add_one {s : State} (h : RegistersOk s) (hlt : s.idx.toNat < s.len.toNat) :
    (s.idx + 1#8).toNat = s.idx.toNat + 1 := by
  have hmax := h.msgMax_le
  have hlen := h.len_le
  rw [BitVec.toNat_add]
  exact Nat.mod_eq_of_lt (by simp; omega)

/-- R202: `len + 1` does not wrap while the buffer is not full. -/
theorem RegistersOk.toNat_len_add_one {s : State} (h : RegistersOk s) (hroom : s.len.toNat < s.cfg.msgMax) :
    (s.len + 1#8).toNat = s.len.toNat + 1 := by
  have hmax := h.msgMax_le
  rw [BitVec.toNat_add]
  exact Nat.mod_eq_of_lt (by simp; omega)

theorem RegistersOk.setIdx {s : State} (h : RegistersOk s) {i : BitVec 8} (hi : i.toNat ≤ s.cfg.msgMax) :
    RegistersOk { s with idx := i } :=
  { h with idx_le := hi }

/-- R71 by R202: the entry that an APPEND writes is the one that enters the message. -/
theorem RegistersOk.append {s : State} (h : RegistersOk s) (c : Byte) (hroom : s.len.toNat < s.cfg.msgMax) :
    RegistersOk { s with mb := Memory.write s.mb s.len.toNat c, len := s.len + 1#8 } := by
  have hlen := h.toNat_len_add_one hroom
  obtain ⟨hwf, hwithin⟩ := h.buffer
  refine { h with len_le := ?_, buffer := ⟨write_wf _ _ _ hwf, write_within _ _ _ hwithin hroom⟩, written := ?_ }
  · exact hlen ▸ hroom
  · intro i (hi : i < (s.len + 1#8).toNat)
    by_cases heq : i = s.len.toNat
    · simp [heq, read_write_same]
    · simpa [read_write_other _ _ heq] using h.written i (by omega)

/-- R203: the empty message is written whatever MB holds. -/
theorem RegistersOk.clear {s : State} (h : RegistersOk s) : RegistersOk { clearFlags s with len := 0#8 } :=
  { h with len_le := Nat.zero_le _, written := fun _ hi => absurd hi (Nat.not_lt_zero _) }

/-! ## The invariant in IDLE and in a segment -/

/-- Between transmissions only the timer's width is left to show. -/
theorem inv_of_idle {s : State} (h : RegistersOk s) (hp : s.phase = .idle) (ht : s.timer < 2 ^ s.cfg.timerW) :
    Inv s := by
  obtain ⟨hw, hlen, hidx, hsr, hbuf, hmsg⟩ := h
  refine ⟨hw, ?phase, ⟨hlen, hidx, ?busy⟩, ?symbol, ?space, ?timer, ?gate, ⟨hsr, ht⟩, hbuf, hmsg⟩
  case phase => simp [PhaseLegal, hp]
  case busy => simp [hp]
  case symbol => simp [SymbolInProgress, hp]
  case space => simp [SpaceInProgress, hp]
  case timer => simp [TimerInSegment, dur, hp]
  case gate => simp [GateIsBusy, State.gateOut, State.busy, hp]

/-- What R47 asks of a segment of phase `p`: the gate is on, character `idx` is still to come in every phase but WARMUP,
and a symbol remains in `sr` while one is emitted. -/
structure SegmentOk (p : Phase) (s : State) : Prop where
  gate : p.gate = true
  idx_le : s.idx.toNat ≤ s.len.toNat
  idx_lt : p ≠ .warmup → s.idx.toNat < s.len.toNat
  sr_pos : p = .mark ∨ p = .elemGap → 1 ≤ s.sr.toNat

theorem inv_of_segment {s : State} (h : RegistersOk s) (hseg : SegmentOk s.phase s)
    (ht : ∀ d ∈ dur s.cfg s.phase s.sym, s.timer ≤ d - 1) (htw : s.timer < 2 ^ s.cfg.timerW) : Inv s := by
  obtain ⟨hw, hlen, hidx, hsr, hbuf, hmsg⟩ := h
  obtain ⟨hgate, hle, hlt, hpos⟩ := hseg
  refine ⟨hw, ?phase, ⟨hlen, hidx, fun _ => hle⟩, fun hp => ⟨hpos hp, hlt ?symbol⟩, fun hp => hlt ?space, ht, ?gate,
    ⟨hsr, htw⟩, hbuf, hmsg⟩
  case phase => constructor <;> intro hp <;> simp [hp] at hgate
  case symbol => rcases hp with hp | hp <;> simp [hp]
  case space => rcases hp with hp | hp <;> simp [hp]
  case gate =>
    have hbusy : s.phase ≠ .idle := by intro hp; simp [hp] at hgate
    simp [GateIsBusy, State.gateOut, State.busy, hgate, hbusy]

theorem segmentOk_of_inv {s : State} (h : Inv s) (hp : InSegment s) : SegmentOk s.phase s := by
  obtain ⟨-, -, ⟨-, -, hle⟩, hsymbol, hspace, -⟩ := h
  refine ⟨(gate_iff_inSegment s).mpr hp, hle hp.phase_ne_idle, fun hne => ?_, fun hp => (hsymbol hp).1⟩
  rcases hp with hp | hp | hp | hp | hp
  · exact absurd hp hne
  · exact (hsymbol (.inl hp)).2
  · exact (hsymbol (.inr hp)).2
  · exact hspace (.inl hp)
  · exact hspace (.inr hp)

/-- R153: a segment begun at its own length starts within it. -/
theorem inv_enter {s : State} {p : Phase} {d : Nat} (h : RegistersOk s) (hseg : SegmentOk p s)
    (hd : dur s.cfg p s.sym = some d) : Inv (enter p d s) := by
  refine inv_of_segment { h with } { hseg with } ?_ (dur_fits h.wellFormed hd)
  intro e he
  obtain rfl : d = e := by simpa [hd] using he
  exact le_refl _

/-- R154: the countdown stays in its segment. -/
theorem inv_tick {s : State} (h : Inv s) (hp : InSegment s) : Inv (tick s) := by
  have hseg := segmentOk_of_inv h hp
  have hreg := registersOk_of_inv h
  obtain ⟨-, -, -, -, -, htimer, -, ⟨-, htw⟩, -⟩ := h
  refine inv_of_segment { hreg with } { hseg with } (fun d hd => ?_) (lt_of_le_of_lt (Nat.sub_le _ _) htw)
  exact (Nat.sub_le _ _).trans (htimer d hd)

/-- The hold after a character or for a space. -/
theorem inv_endOfCode {s : State} (h : RegistersOk s) (hlt : s.idx.toNat < s.len.toNat) : Inv (endOfCode s) := by
  rcases endOfCode_cases s with ⟨-, he⟩ | ⟨-, he⟩ <;> rw [he]
  · exact inv_enter h ⟨rfl, hlt.le, fun _ => hlt, by simp⟩ rfl
  · exact inv_enter h ⟨rfl, hlt.le, fun _ => hlt, by simp⟩ rfl

/-- R132: a symbol step leaves a remainder of at least 1 that fits CW bits. -/
theorem inv_unpackStep {s : State} {v : CodeWord} (h : RegistersOk s) (hlt : s.idx.toNat < s.len.toNat)
    (hv : 2 ≤ v.toNat) (hfit : v.toNat < 2 ^ s.cfg.cw) : Inv (unpackStep v s) := by
  have hsr := shiftRight1_toNat v
  refine inv_enter { h with sr_lt := ?_ } ⟨rfl, hlt.le, fun _ => hlt, fun _ => ?_⟩ rfl
  · exact lt_of_le_of_lt (hsr ▸ Nat.div_le_self _ _) hfit
  · show 1 ≤ (shiftRight1 v).toNat
    omega

/-! ## Each branch of a clock edge -/

theorem inv_exec_codeWord {s t : State} {v : CodeWord} (h : RegistersOk s) (hlt : s.idx.toNat < s.len.toNat)
    (hfit : v.toNat < 2 ^ s.cfg.cw) (hexec : exec (decodeCodeWord v) s = .next t) : Inv t := by
  rcases exec_codeWord_cases hexec with ⟨-, rfl⟩ | ⟨hv, rfl⟩
  · exact inv_endOfCode h hlt
  · exact inv_unpackStep h hlt hv hfit

/-- R171: a character start at `len` or below ends the message or begins a character of it. -/
theorem inv_startChar {s t : State} {i : BitVec 8} (h : RegistersOk s) (hi : i.toNat ≤ s.len.toNat)
    (hstart : startChar i s = .next t) : Inv t := by
  have hset := h.setIdx (hi.trans h.len_le)
  rcases startChar_cases hstart with ⟨-, rfl⟩ | ⟨hne, -, c, -, hexec⟩
  · exact inv_of_idle { hset with } rfl (Nat.two_pow_pos _)
  · have hlt : i.toNat < s.len.toNat := lt_of_le_of_ne hi fun heq => hne (BitVec.eq_of_toNat_eq heq)
    exact inv_exec_codeWord hset hlt (codeOf_lt h.wellFormed c) hexec

/-- An accepted command word, in IDLE. -/
theorem inv_exec_command {s t : State} {w : CmdWord} (h : Inv s) (hp : s.phase = .idle)
    (hexec : exec (decodeCommand w) s = .next t) : Inv t := by
  have hreg := registersOk_of_inv h
  have htw : s.timer < 2 ^ s.cfg.timerW := by
    obtain ⟨-, -, -, -, -, -, -, ⟨-, htw⟩, -⟩ := h
    exact htw
  obtain ⟨u, hu, hcases⟩ := exec_command_cases w s
  obtain rfl : u = t := by simpa [hu] using hexec
  rcases hcases with rfl | ⟨c, -, hroom, rfl⟩ | ⟨c, -, -, rfl⟩ | ⟨-, rfl⟩ | ⟨-, -, rfl⟩ | ⟨-, rfl⟩
  · exact h
  · exact inv_of_idle (hreg.append c hroom) hp htw
  · exact inv_of_idle { hreg with } hp htw
  · exact inv_of_idle hreg.clear hp htw
  · exact inv_enter (hreg.setIdx (Nat.zero_le _)) ⟨rfl, Nat.zero_le _, fun hne => absurd rfl hne, by simp⟩ rfl
  · exact inv_of_idle { hreg with } hp htw

/-- R172 to R176: the end of each segment. -/
theorem inv_endOfSegment {s t : State} (h : Inv s) (hp : InSegment s) (hend : endOfSegment s = .next t) : Inv t := by
  have hreg := registersOk_of_inv h
  have hseg := segmentOk_of_inv h hp
  rcases endOfSegment_cases hp hend with ⟨-, hstart⟩ | ⟨hph, rfl⟩ | ⟨hph, hexec⟩ | ⟨hph, rfl⟩ | ⟨hph, hstart⟩
  · exact inv_startChar hreg (Nat.zero_le _) hstart
  · exact inv_enter hreg ⟨rfl, hseg.idx_le, fun _ => hseg.idx_lt (by simp [hph]), fun _ => hseg.sr_pos (.inl hph)⟩ rfl
  · exact inv_exec_codeWord hreg (hseg.idx_lt (by simp [hph])) hreg.sr_lt hexec
  · exact inv_enter hreg ⟨rfl, hseg.idx_le, fun _ => hseg.idx_lt (by simp [hph]), by simp⟩ rfl
  · have hlt := hseg.idx_lt (by simp [hph])
    exact inv_startChar hreg (by rw [hreg.toNat_idx_add_one hlt]; exact hlt) hstart

theorem inv_clockEdge {s u : State} (h : Inv s) (hedge : clockEdge s = .next u) : Inv u := by
  rcases clockEdge_cases hedge with ⟨-, rfl⟩ | ⟨-, -, -, rfl⟩ | ⟨-, hp, -, hexec⟩ | ⟨-, hp, -, rfl⟩ | ⟨-, hp, -, hend⟩
    | ⟨-, hp, -⟩
  · have hreg := registersOk_of_inv h
    exact inv_resetRegisters hreg.wellFormed hreg.buffer
  · exact h
  · exact inv_exec_command h hp hexec
  · exact inv_tick h hp
  · exact inv_endOfSegment h hp hend
  · obtain ⟨-, ⟨h6, h7⟩, -⟩ := h
    exact absurd hp (not_or.mpr ⟨h6, h7⟩)

/-- Settles O53: a step is a clock edge, every branch of which keeps the invariant, and the invariant reads no input. -/
theorem stepKeepsTheInvariant : Obligations.StepKeepsTheInvariant := by
  intro s t h hstep
  obtain ⟨-, u, hedge, rfl⟩ := step_next hstep
  exact (inv_clockEdge h hedge : Inv u)

end Sys2Proof.Machine
end

section
/-! PROOFS. Two states that differ only in hidden registers and unwritten entries step together (R48, R71).  The two
runs are taken forward side by side: one lemma per branch of a clock edge says that both sides answer a next state
and that the two next states differ only so. -/

namespace Sys2Proof.Machine

/-! ## What two such states share in every phase -/

/-- The part of `SameVisible` that reads none of `phase`, `idx`, `timer` and `sr`. -/
structure SameMessage (s t : State) : Prop where
  cfg : s.cfg = t.cfg
  inputs : s.inputs = t.inputs
  len : s.len = t.len
  ovf : s.ovf = t.ovf
  ill : s.ill = t.ill
  written : ∀ i, i < s.len.toNat → Memory.read s.mb i = Memory.read t.mb i

theorem sameMessage_of_sameVisible {s t : State} (h : SameVisible s t) : SameMessage s t := by
  obtain ⟨hcfg, hin, -, hlen, hovf, hill, hmb, -⟩ := h
  exact ⟨hcfg, hin, hlen, hovf, hill, hmb⟩

theorem SameMessage.sampled {s t : State} (h : SameMessage s t) : s.sampled = t.sampled := by
  simp [State.sampled, State.inputAt, h.inputs]

theorem SameMessage.setIdx {s t : State} (h : SameMessage s t) (i : BitVec 8) :
    SameMessage { s with idx := i } { t with idx := i } :=
  { h with }

/-- R202: both buffers store the same character at the same entry. -/
theorem SameMessage.append {s t : State} (h : SameMessage s t) (c : Byte)
    (hlen : (s.len + 1#8).toNat = s.len.toNat + 1) :
    SameMessage { s with mb := Memory.write s.mb s.len.toNat c, len := s.len + 1#8 }
      { t with mb := Memory.write t.mb t.len.toNat c, len := t.len + 1#8 } := by
  refine { h with len := congrArg (· + 1#8) h.len, written := fun i (hi : i < (s.len + 1#8).toNat) => ?_ }
  show Memory.read (Memory.write s.mb s.len.toNat c) i = Memory.read (Memory.write t.mb t.len.toNat c) i
  rw [← h.len]
  by_cases heq : i = s.len.toNat
  · rw [heq, read_write_same, read_write_same]
  · rw [read_write_other _ _ heq, read_write_other _ _ heq]
    exact h.written i (by omega)

/-- Between transmissions nothing more is asked. -/
theorem sameVisible_of_idle {s t : State} (h : SameMessage s t) (hs : s.phase = .idle) (ht : t.phase = .idle) :
    SameVisible s t :=
  ⟨h.cfg, h.inputs, hs.trans ht.symm, h.len, h.ovf, h.ill, h.written, fun hne => absurd hs hne,
    fun hp => by simp [hs] at hp⟩

/-- Both enter the same segment at the same length. -/
theorem sameVisible_enter {s t : State} {p : Phase} {d e : Nat} (h : SameMessage s t) (hd : d = e)
    (hidx : s.idx = t.idx) (hsr : p = .mark ∨ p = .elemGap → s.sr = t.sr) :
    SameVisible (enter p d s) (enter p e t) :=
  ⟨h.cfg, h.inputs, rfl, h.len, h.ovf, h.ill, h.written, fun _ => ⟨hidx, congrArg (· - 1) hd⟩, hsr⟩

theorem sameVisible_tick {s t : State} (h : SameVisible s t) : SameVisible (tick s) (tick t) := by
  obtain ⟨hcfg, hin, hp, hlen, hovf, hill, hmb, hbusy, hsr⟩ := h
  exact ⟨hcfg, hin, hp, hlen, hovf, hill, hmb, fun hne => (hbusy hne).imp_right (congrArg (· - 1)), hsr⟩

theorem sameVisible_dropInput {s t : State} (h : SameVisible s t) : SameVisible (dropInput s) (dropInput t) := by
  obtain ⟨hcfg, hin, hrest⟩ := h
  exact ⟨hcfg, congrArg (List.drop 1) hin, hrest⟩

/-- R42, R43: the outputs read `phase`, `len`, `ovf` and `ill` alone. -/
theorem outputs_eq_of_sameVisible {s t : State} (h : SameVisible s t) : s.outputs = t.outputs := by
  obtain ⟨-, -, hp, hlen, hovf, hill, -⟩ := h
  simp only [State.outputs, State.status, State.gateOut, State.keyOut, State.toneOut, State.ledOut, State.busy,
    State.cmdReady, hp, hlen, hovf, hill]

/-! ## Each branch of a clock edge, on both sides -/

/-- Both outcomes are next states, and no output can tell these apart. -/
def StepTogether (o p : Host.Outcome State Fault Refusal) : Prop :=
  ∃ u v, o = .next u ∧ p = .next v ∧ SameVisible u v

theorem stepTogether_next {u v : State} (h : SameVisible u v) : StepTogether (.next u) (.next v) :=
  ⟨u, v, rfl, rfl, h⟩

/-- One code word decoded on both sides. -/
theorem stepTogether_exec_codeWord {s t : State} (v : CodeWord) (h : SameMessage s t) (hp : s.phase = t.phase)
    (hidx : s.idx = t.idx) : StepTogether (exec (decodeCodeWord v) s) (exec (decodeCodeWord v) t) := by
  rw [exec_codeWord, exec_codeWord]
  refine stepTogether_next ?_
  by_cases hv : v = 0#16 ∨ v = 1#16
  · rw [if_pos hv, if_pos hv]
    unfold endOfCode
    rw [← hp]
    split
    · exact sameVisible_enter h (congrArg letterCycles h.cfg) hidx (by simp)
    · exact sameVisible_enter h (congrArg letterCycles h.cfg) hidx (by simp)
  · rw [if_neg hv, if_neg hv]
    exact sameVisible_enter { h with } (congrArg (markCycles · (firstSymbol v)) h.cfg) hidx fun _ => rfl

/-- A character start at `len` or below reads a written entry, and the same character on both sides (R71). -/
theorem stepTogether_startChar {s t : State} {i : BitVec 8} (hs : RegistersOk s) (h : SameMessage s t)
    (hp : s.phase = t.phase) (hi : i.toNat ≤ s.len.toNat) : StepTogether (startChar i s) (startChar i t) := by
  by_cases heq : i = s.len
  · rw [startChar_end heq, startChar_end (heq.trans h.len)]
    exact stepTogether_next (sameVisible_of_idle { h with } rfl rfl)
  · have hlt : i.toNat < s.len.toNat := lt_of_le_of_ne hi fun hn => heq (BitVec.eq_of_toNat_eq hn)
    have hmax := lt_of_lt_of_le hlt hs.len_le
    obtain ⟨c, hc⟩ := Option.isSome_iff_exists.mp (hs.written _ hlt)
    have hstart_t := startChar_some (h.len ▸ heq) (h.cfg ▸ hmax) ((h.written _ hlt).symm.trans hc)
    have hcode : codeOf t.cfg c = codeOf s.cfg c := by rw [h.cfg]
    rw [startChar_some heq hmax hc, hstart_t, hcode]
    exact stepTogether_exec_codeWord _ (h.setIdx i) hp rfl

/-- One command accepted on both sides. -/
theorem stepTogether_exec_hostCommand {s t : State} {i : Instr} (hi : i.format = .cmd16) (hs : RegistersOk s)
    (h : SameMessage s t) (hps : s.phase = .idle) (hpt : t.phase = .idle) :
    StepTogether (exec i s) (exec i t) := by
  cases i with
  | nop => exact stepTogether_next (sameVisible_of_idle h hps hpt)
  | append c =>
    by_cases hroom : s.len.toNat < s.cfg.msgMax
    · rw [exec_append_of_room hroom, exec_append_of_room (h.len ▸ h.cfg ▸ hroom)]
      exact stepTogether_next (sameVisible_of_idle (h.append c (hs.toNat_len_add_one hroom)) hps hpt)
    · rw [exec_append_of_full hroom, exec_append_of_full (h.len ▸ h.cfg ▸ hroom)]
      exact stepTogether_next (sameVisible_of_idle { h with ovf := rfl } hps hpt)
  | clear =>
    refine stepTogether_next (sameVisible_of_idle ?_ hps hpt)
    exact { h with len := rfl, ovf := rfl, ill := rfl, written := fun _ hn => absurd hn (Nat.not_lt_zero _) }
  | send =>
    cases hsup : s.sampled.suppress with
    | true =>
      rw [exec_send_of_suppressed hsup, exec_send_of_suppressed (h.sampled ▸ hsup)]
      exact stepTogether_next (sameVisible_of_idle h hps hpt)
    | false =>
      rw [exec_send_of_unsuppressed hsup, exec_send_of_unsuppressed (h.sampled ▸ hsup)]
      exact stepTogether_next (sameVisible_enter (h.setIdx _) (congrArg Config.warmupCycles h.cfg) rfl (by simp))
  | illegal w => exact stepTogether_next (sameVisible_of_idle { h with ill := rfl } hps hpt)
  | cwInvalid => simp [Instr.format] at hi
  | cwEnd => simp [Instr.format] at hi
  | cwDit r => simp [Instr.format] at hi
  | cwDah r => simp [Instr.format] at hi

theorem stepTogether_idleEdge {s t : State} (hs : RegistersOk s) (h : SameMessage s t) (hps : s.phase = .idle)
    (hpt : t.phase = .idle) : StepTogether (idleEdge s) (idleEdge t) := by
  unfold idleEdge executeCommand
  rw [← h.sampled]
  split
  · exact stepTogether_exec_hostCommand (decodeCommand_format _) hs h hps hpt
  · exact stepTogether_next (sameVisible_of_idle h hps hpt)

theorem stepTogether_endOfSegment {s t : State} (hinv : Inv s) (hp : InSegment s) (h : SameVisible s t) :
    StepTogether (endOfSegment s) (endOfSegment t) := by
  have hreg := registersOk_of_inv hinv
  have hseg := segmentOk_of_inv hinv hp
  have hmsg := sameMessage_of_sameVisible h
  obtain ⟨hcfg, -, hph, -, -, -, -, hbusy, hsr⟩ := h
  obtain ⟨hidx, -⟩ := hbusy hp.phase_ne_idle
  rcases hp with hp | hp | hp | hp | hp <;> have hpt := hph.symm.trans hp
  · rw [endOfSegment_warmup hp, endOfSegment_warmup hpt]
    exact stepTogether_startChar hreg hmsg hph (Nat.zero_le _)
  · rw [endOfSegment_mark hp, endOfSegment_mark hpt]
    exact stepTogether_next (sameVisible_enter hmsg (congrArg gapCycles hcfg) hidx fun _ => hsr (.inl hp))
  · rw [endOfSegment_elemGap hp, endOfSegment_elemGap hpt, ← hsr (.inr hp)]
    exact stepTogether_exec_codeWord _ hmsg hph hidx
  · rw [endOfSegment_charSpace hp, endOfSegment_charSpace hpt]
    exact stepTogether_next (sameVisible_enter hmsg (congrArg letterCycles hcfg) hidx (by simp))
  · rw [endOfSegment_letterSpace hp, endOfSegment_letterSpace hpt, ← hidx]
    have hlt := hseg.idx_lt (by simp [hp])
    exact stepTogether_startChar hreg hmsg hph (by rw [hreg.toNat_idx_add_one hlt]; exact hlt)

theorem stepTogether_runSegment {s t : State} (hinv : Inv s) (hp : InSegment s) (h : SameVisible s t) :
    StepTogether (runSegment s) (runSegment t) := by
  have htimer : s.timer = t.timer := by
    obtain ⟨-, -, -, -, -, -, -, hbusy, -⟩ := h
    exact (hbusy hp.phase_ne_idle).2
  unfold runSegment
  rw [← htimer]
  split
  · exact stepTogether_next (sameVisible_tick h)
  · exact stepTogether_endOfSegment hinv hp h

theorem stepTogether_clockEdge {s t : State} (hinv : Inv s) (h : SameVisible s t) :
    StepTogether (clockEdge s) (clockEdge t) := by
  have hmsg := sameMessage_of_sameVisible h
  have hph : s.phase = t.phase := by
    obtain ⟨-, -, hph, -⟩ := h
    exact hph
  cases hrst : s.sampled.rst with
  | true =>
    rw [clockEdge_reset hrst, clockEdge_reset (hmsg.sampled ▸ hrst)]
    refine stepTogether_next (sameVisible_of_idle ?_ rfl rfl)
    exact { hmsg with len := rfl, ovf := rfl, ill := rfl, written := fun _ hn => absurd hn (Nat.not_lt_zero _) }
  | false =>
    have hrst_t : t.sampled.rst = false := hmsg.sampled ▸ hrst
    rcases phase_branches s with hp | hp | hp
    · rw [clockEdge_idle hrst hp, clockEdge_idle hrst_t (hph.symm.trans hp)]
      exact stepTogether_idleEdge (registersOk_of_inv hinv) hmsg hp (hph.symm.trans hp)
    · have hpt : InSegment t := by rwa [InSegment, ← hph]
      rw [clockEdge_segment hrst hp, clockEdge_segment hrst_t hpt]
      exact stepTogether_runSegment hinv hp h
    · obtain ⟨-, ⟨h6, h7⟩, -⟩ := hinv
      exact absurd hp (not_or.mpr ⟨h6, h7⟩)

/-- Settles O55: the outputs read visible registers only, and each branch of a clock edge takes both states on
together. -/
theorem hiddenStateNeverReachesAnOutput : Obligations.HiddenStateNeverReachesAnOutput := by
  intro s t hs ht h
  obtain ⟨u, v, hu, hv, huv⟩ := stepTogether_clockEdge hs h
  exact ⟨outputs_eq_of_sameVisible h, dropInput u, dropInput v,
    step_of_clockEdge (registersOk_of_inv hs).wellFormed hu, step_of_clockEdge (registersOk_of_inv ht).wellFormed hv,
    sameVisible_dropInput huv⟩

end Sys2Proof.Machine
end

section
/-! PROOFS. Which edges write `ovf`, `ill`, `idx`, `sr`, `sym` and MB (R34, R36 to R40). -/

namespace Sys2Proof.Machine

/-! ## The registers of the host's side -/

/-- `len`, MB and the sticky flags, which the transmitter only reads, are as before. -/
structure HostSideKept (s t : State) : Prop where
  len : t.len = s.len
  mb : t.mb = s.mb
  ovf : t.ovf = s.ovf
  ill : t.ill = s.ill

theorem hostSideKept_exec_codeWord {v : CodeWord} {s t : State} (h : exec (decodeCodeWord v) s = .next t) :
    HostSideKept s t := by
  rcases exec_codeWord_cases h with ⟨-, rfl⟩ | ⟨-, rfl⟩
  · rcases endOfCode_cases s with ⟨-, he⟩ | ⟨-, he⟩ <;> rw [he] <;> exact ⟨rfl, rfl, rfl, rfl⟩
  · exact ⟨rfl, rfl, rfl, rfl⟩

theorem hostSideKept_startChar {i : BitVec 8} {s t : State} (h : startChar i s = .next t) : HostSideKept s t := by
  rcases startChar_cases h with ⟨-, rfl⟩ | ⟨-, -, c, -, hexec⟩
  · exact ⟨rfl, rfl, rfl, rfl⟩
  · exact { hostSideKept_exec_codeWord hexec with }

theorem hostSideKept_endOfSegment {s t : State} (hp : InSegment s) (h : endOfSegment s = .next t) :
    HostSideKept s t := by
  rcases endOfSegment_cases hp h with ⟨-, hstart⟩ | ⟨-, rfl⟩ | ⟨-, hexec⟩ | ⟨-, rfl⟩ | ⟨-, hstart⟩
  · exact hostSideKept_startChar hstart
  · exact ⟨rfl, rfl, rfl, rfl⟩
  · exact hostSideKept_exec_codeWord hexec
  · exact ⟨rfl, rfl, rfl, rfl⟩
  · exact hostSideKept_startChar hstart

/-- R183, R200: an edge resets, runs an accepted command, or keeps the registers of the host's side. -/
theorem clockEdge_hostSide {s u : State} (h : clockEdge s = .next u) :
    (s.sampled.rst = true ∧ u = resetRegisters s) ∨
    (s.sampled.rst = false ∧ s.accepts = true ∧ CommandEffect s (decodeCommand s.sampled.cmd) u) ∨
    (s.sampled.rst = false ∧ s.accepts = false ∧ HostSideKept s u) := by
  rcases clockEdge_cases h with hreset | ⟨hrst, -, hvalid, rfl⟩ | ⟨hrst, hp, hvalid, hexec⟩ | ⟨hrst, hp, -, rfl⟩
    | ⟨hrst, hp, -, hend⟩ | ⟨hrst, hp, rfl⟩
  · exact .inl hreset
  · exact .inr (.inr ⟨hrst, by simp [State.accepts, hvalid], ⟨rfl, rfl, rfl, rfl⟩⟩)
  · exact .inr (.inl ⟨hrst, (accepts_iff s).mpr ⟨hrst, hvalid, hp⟩, commandEffect_of_exec hexec⟩)
  · exact .inr (.inr ⟨hrst, accepts_eq_false_of_busy hp.phase_ne_idle, ⟨rfl, rfl, rfl, rfl⟩⟩)
  · exact .inr (.inr ⟨hrst, accepts_eq_false_of_busy hp.phase_ne_idle, hostSideKept_endOfSegment hp hend⟩)
  · have hne : s.phase ≠ .idle := by rcases hp with hp | hp <;> simp [hp]
    exact .inr (.inr ⟨hrst, accepts_eq_false_of_busy hne, ⟨rfl, rfl, rfl, rfl⟩⟩)

/-! ## The sticky flags -/

theorem CommandEffect.ovf_iff {s t : State} {i : Instr} (h : CommandEffect s i t) :
    t.ovf = true ↔ i ≠ .clear ∧ (s.ovf = true ∨ (s.cfg.msgMax ≤ s.len.toNat ∧ ∃ c, i = .append c)) := by
  cases h with
  | store c hroom => simp [Nat.not_le.mpr hroom]
  | drop c hfull => simp [Nat.not_lt.mp hfull]
  | _ => simp

theorem CommandEffect.ill_iff {s t : State} {i : Instr} (h : CommandEffect s i t) :
    t.ill = true ↔ i ≠ .clear ∧ (s.ill = true ∨ ∃ w, i = .illegal w) := by
  cases h <;> simp

/-- Settles O49: reset clears both flags, an accepted command does what R202, R203 and R206 say, and every other edge
keeps them. -/
theorem stickyFlagsAreSetAndClearedOnlySo : Obligations.StickyFlagsAreSetAndClearedOnlySo := by
  intro s t hstep
  obtain ⟨-, u, hedge, rfl⟩ := step_next hstep
  rcases clockEdge_hostSide hedge with ⟨hrst, rfl⟩ | ⟨hrst, hacc, heffect⟩ | ⟨hrst, hacc, hkept⟩
  · simp [hrst]
  · simp [hrst, hacc, heffect.ovf_iff, heffect.ill_iff]
  · simp [hrst, hacc, hkept.ovf, hkept.ill]

/-! ## The message buffer -/

theorem CommandEffect.read_mb {s t : State} {i : Instr} (h : CommandEffect s i t) (a : Nat) :
    Memory.read t.mb a = Memory.read s.mb a ∨
    (a = s.len.toNat ∧ s.len.toNat < s.cfg.msgMax ∧ ∃ c, i = .append c ∧ Memory.read t.mb a = some c) := by
  cases h with
  | store c hroom =>
    by_cases ha : a = s.len.toNat
    · exact .inr ⟨ha, hroom, c, rfl, by rw [ha]; exact read_write_same _ _ _⟩
    · exact .inl (read_write_other _ _ ha)
  | _ => exact .inl rfl

/-- Settles O52: of the three kinds of edge only an accepted command can write MB, and of the commands only the stored
APPEND does. -/
theorem bufferChangesOnlyByAppendAtLen : Obligations.BufferChangesOnlyByAppendAtLen := by
  intro s t hstep a
  obtain ⟨-, u, hedge, rfl⟩ := step_next hstep
  rcases clockEdge_hostSide hedge with ⟨-, rfl⟩ | ⟨-, hacc, heffect⟩ | ⟨-, -, hkept⟩
  · exact .inl rfl
  · exact (heffect.read_mb a).imp_right fun ⟨ha, hroom, hc⟩ => ⟨ha, hacc, hroom, hc⟩
  · exact .inl (congrArg (Memory.read · a) hkept.mb)

/-! ## `idx` -/

theorem exec_codeWord_idx {v : CodeWord} {s t : State} (h : exec (decodeCodeWord v) s = .next t) :
    t.idx = s.idx := by
  rcases exec_codeWord_cases h with ⟨-, rfl⟩ | ⟨-, rfl⟩
  · rcases endOfCode_cases s with ⟨-, he⟩ | ⟨-, he⟩ <;> simp [he]
  · simp

theorem startChar_idx {i : BitVec 8} {s t : State} (h : startChar i s = .next t) : t.idx = i := by
  rcases startChar_cases h with ⟨-, rfl⟩ | ⟨-, -, c, -, hexec⟩
  · simp
  · exact exec_codeWord_idx hexec

theorem endOfSegment_idx {s t : State} (hp : InSegment s) (h : endOfSegment s = .next t) :
    t.idx = if s.phase = .warmup then 0#8 else if s.phase = .letterSpace then s.idx + 1#8 else s.idx := by
  rcases endOfSegment_cases hp h with ⟨hph, hstart⟩ | ⟨hph, rfl⟩ | ⟨hph, hexec⟩ | ⟨hph, rfl⟩ | ⟨hph, hstart⟩
  · simp [hph, startChar_idx hstart]
  · simp [hph]
  · simp [hph, exec_codeWord_idx hexec]
  · simp [hph]
  · simp [hph, startChar_idx hstart]

theorem CommandEffect.idx_eq {s t : State} {i : Instr} (h : CommandEffect s i t) :
    t.idx = if i = .send ∧ s.sampled.suppress = false then 0#8 else s.idx := by
  cases h with
  | suppressed hsup => simp [hsup]
  | send hsup => simp [hsup]
  | _ => simp

/-- Settles O50: each branch of a clock edge writes `idx` as its rule says. -/
theorem idxMovesOnlySo : Obligations.IdxMovesOnlySo := by
  intro s t hstep
  obtain ⟨-, u, hedge, rfl⟩ := step_next hstep
  rcases clockEdge_cases hedge with ⟨hrst, rfl⟩ | ⟨hrst, hp, hvalid, rfl⟩ | ⟨hrst, hp, hvalid, hexec⟩
    | ⟨hrst, hp, htimer, rfl⟩ | ⟨hrst, hp, htimer, hend⟩ | ⟨hrst, hp, rfl⟩
  · simp [hrst]
  · have hacc : u.accepts = false := by simp [State.accepts, hvalid]
    simp [AcceptsSend, hrst, hp, hacc]
  · have hacc := (accepts_iff s).mpr ⟨hrst, hvalid, hp⟩
    simp [AcceptsSend, hrst, hp, hacc, (commandEffect_of_exec hexec).idx_eq]
  · have hacc := accepts_eq_false_of_busy hp.phase_ne_idle
    simp [AcceptsSend, hrst, hacc, htimer]
  · have hacc := accepts_eq_false_of_busy hp.phase_ne_idle
    simp [AcceptsSend, hrst, hacc, htimer, endOfSegment_idx hp hend]
  · have hacc : s.accepts = false := accepts_eq_false_of_busy (by rcases hp with hp | hp <;> simp [hp])
    rcases hp with hp | hp <;> simp [AcceptsSend, hrst, hacc, hp]

/-! ## `sr` and `sym` -/

/-- `t` is the first cycle of a MARK, or holds the `sr` and `sym` of `s`. -/
def MarkOrUnpackerKept (s t : State) : Prop := t.phase = .mark ∨ (t.sr = s.sr ∧ t.sym = s.sym)

theorem exec_codeWord_unpacker {v : CodeWord} {s t : State} (h : exec (decodeCodeWord v) s = .next t) :
    MarkOrUnpackerKept s t := by
  rcases exec_codeWord_cases h with ⟨-, rfl⟩ | ⟨-, rfl⟩
  · rcases endOfCode_cases s with ⟨-, he⟩ | ⟨-, he⟩ <;> exact .inr (by simp [he])
  · exact .inl rfl

theorem startChar_unpacker {i : BitVec 8} {s t : State} (h : startChar i s = .next t) : MarkOrUnpackerKept s t := by
  rcases startChar_cases h with ⟨-, rfl⟩ | ⟨-, -, c, -, hexec⟩
  · exact .inr ⟨rfl, rfl⟩
  · have hunpacker := exec_codeWord_unpacker hexec
    exact hunpacker

theorem endOfSegment_unpacker {s t : State} (hp : InSegment s) (h : endOfSegment s = .next t) :
    (t.phase = .mark ∧ (s.phase = .warmup ∨ s.phase = .elemGap ∨ s.phase = .letterSpace))
    ∨ (t.sr = s.sr ∧ t.sym = s.sym) := by
  rcases endOfSegment_cases hp h with ⟨hph, hstart⟩ | ⟨-, rfl⟩ | ⟨hph, hexec⟩ | ⟨-, rfl⟩ | ⟨hph, hstart⟩
  · exact (startChar_unpacker hstart).imp_left fun hmark => ⟨hmark, .inl hph⟩
  · exact .inr ⟨rfl, rfl⟩
  · exact (exec_codeWord_unpacker hexec).imp_left fun hmark => ⟨hmark, .inr (.inl hph)⟩
  · exact .inr ⟨rfl, rfl⟩
  · exact (startChar_unpacker hstart).imp_left fun hmark => ⟨hmark, .inr (.inr hph)⟩

theorem CommandEffect.unpacker_kept {s t : State} {i : Instr} (h : CommandEffect s i t) :
    t.sr = s.sr ∧ t.sym = s.sym := by
  cases h <;> exact ⟨rfl, rfl⟩

/-- Settles O51: without reset only the end of a segment can write `sr` and `sym`, and only by a symbol step. -/
theorem unpackerRegistersChangeOnlyAtAMark : Obligations.UnpackerRegistersChangeOnlyAtAMark := by
  intro s t hstep hnorst
  obtain ⟨-, u, hedge, rfl⟩ := step_next hstep
  rcases clockEdge_cases hedge with ⟨hrst, -⟩ | ⟨-, -, -, rfl⟩ | ⟨-, -, -, hexec⟩ | ⟨-, -, -, rfl⟩
    | ⟨-, hp, htimer, hend⟩ | ⟨-, -, rfl⟩
  · simp [hnorst] at hrst
  · exact .inr ⟨rfl, rfl⟩
  · exact .inr (commandEffect_of_exec hexec).unpacker_kept
  · exact .inr ⟨rfl, rfl⟩
  · exact (endOfSegment_unpacker hp hend).imp_left fun ⟨hmark, hfrom⟩ => ⟨hmark, htimer, hfrom⟩
  · exact .inr ⟨rfl, rfl⟩

end Sys2Proof.Machine
end

section
/-! PROOFS. The outputs, the status word and the binary values of `phase` (R32, R42, R43), and the registers after
reset. -/

namespace Sys2Proof.Machine

/-! ## The phase as a number -/

@[simp] theorem Phase.ofBits_toBits (p : Phase) : Phase.ofBits p.toBits = p := by cases p <;> rfl

@[simp] theorem Phase.toBits_ofBits (b : BitVec 3) : (Phase.ofBits b).toBits = b := by
  revert b
  decide

/-- Settles O48: `toBits` and `ofBits` are inverse, and the six named values are as in R32's list. -/
theorem phaseValuesAreNumbered : Obligations.PhaseValuesAreNumbered :=
  ⟨Phase.ofBits_toBits, Phase.toBits_ofBits, rfl, rfl, rfl, rfl, rfl, rfl⟩

/-! ## The outputs of a phase -/

/-- R42: the gate is on in the phases 1 to 5. -/
theorem Phase.gate_iff_toBits (p : Phase) : p.gate = true ↔ 1 ≤ p.toBits.toNat ∧ p.toBits.toNat ≤ 5 := by
  cases p <;> decide

/-- R42: the key is down in phase 2. -/
theorem Phase.key_iff_toBits (p : Phase) : p.key = true ↔ p.toBits.toNat = 2 := by
  cases p <;> decide

theorem Phase.eq_idle_iff_toBits (p : Phase) : p = .idle ↔ p.toBits.toNat = 0 := by
  cases p <;> decide

theorem State.busy_iff_toBits (s : State) : s.busy = true ↔ s.phase.toBits.toNat ≠ 0 := by
  rw [State.busy, decide_eq_true_eq, ne_eq, Phase.eq_idle_iff_toBits]

theorem State.cmdReady_iff_toBits (s : State) : s.cmdReady = true ↔ s.phase.toBits.toNat = 0 := by
  rw [State.cmdReady, decide_eq_true_eq, Phase.eq_idle_iff_toBits]

theorem State.cmdReady_eq_not_busy (s : State) : s.cmdReady = !s.busy := by
  simp [State.cmdReady, State.busy]

/-- Settles O46: each output reads `phase` alone, and R47 (f) is part of the invariant. -/
theorem outputsAreDecodedFromPhase : Obligations.OutputsAreDecodedFromPhase := by
  intro s
  refine ⟨s.phase.gate_iff_toBits, s.phase.key_iff_toBits, rfl, rfl, s.busy_iff_toBits, s.cmdReady_iff_toBits, ?_⟩
  rintro ⟨-, -, -, -, -, -, hgate, -⟩
  exact ⟨hgate.symm, s.cmdReady_eq_not_busy⟩

/-! ## The status word -/

/-- The five flags are single bits put below LEN and its zeros, BUSY last. -/
theorem State.status_eq_concat (s : State) :
    s.status = (((((s.len ++ 0#3).concat s.ill).concat s.ovf).concat s.keyOut).concat s.gateOut).concat s.busy := rfl

/-- The bits above the five flags. -/
theorem State.status_getLsbD_add_five (s : State) (i : Nat) :
    s.status.getLsbD (i + 5) = (s.len ++ 0#3).getLsbD i := by
  rw [s.status_eq_concat]
  simp only [BitVec.getLsbD_concat_succ]

/-- Settles O47: each flag is read at its place among the appended bits, and LEN and its zeros above them. -/
theorem statusWordFields : Obligations.StatusWordFields := by
  intro s
  refine ⟨?busy, ?gate, ?key, ?ovf, ?ill, ?zeros, ?len⟩
  case zeros =>
    apply BitVec.eq_of_getLsbD_eq
    intro i hi
    rw [BitVec.getLsbD_extractLsb', Nat.add_comm 5 i, s.status_getLsbD_add_five, BitVec.getLsbD_append]
    simp [hi]
  case len =>
    apply BitVec.eq_of_getLsbD_eq
    intro i hi
    rw [BitVec.getLsbD_extractLsb', show 8 + i = i + 3 + 5 by omega, s.status_getLsbD_add_five,
      BitVec.getLsbD_append]
    simp [hi]
  all_goals
    rw [s.status_eq_concat]
    simp only [BitVec.getLsbD_concat_succ, BitVec.getLsbD_concat_zero]

/-! ## The state after reset -/

/-- Settles O58: `State.reset` writes each register's reset value, and its status word is then 0. -/
theorem resetStateHasTheResetValues : Obligations.ResetStateHasTheResetValues :=
  ⟨rfl, rfl, rfl, rfl, rfl, rfl, rfl, rfl, rfl, by decide⟩

end Sys2Proof.Machine
end

section
/-! PROOFS. The statement of 20_memory.md: APPENDs accepted at consecutive edges build the message in order (R66, R202).
One accepted APPEND is said once, as a step and as what it does to the message; the run is an induction over the
characters. -/

namespace Sys2Proof.Machine

/-! ## The word of an APPEND -/

/-- R81: the word `0x1000 | c` as its three fields; the two operands of the `|` share no bit. -/
theorem appendWord_eq_commandWord (c : Byte) : 0x1000#16 ||| c.setWidth 16 = commandWord 0x1#4 0x0#4 c :=
  calc 0x1000#16 ||| c.setWidth 16
      = ((0x1#4 ++ 0x0#4) ++ 0x00#8) ||| (0x00#8 ++ c) := by rw [BitVec.setWidth_eq_append (by decide)]; rfl
    _ = commandWord 0x1#4 0x0#4 c := by rw [BitVec.or_append, BitVec.or_zero, BitVec.zero_or]; rfl

theorem opField_commandWord (op sub : BitVec 4) (c : Byte) : opField (commandWord op sub c) = op := by
  rw [opField, commandWord, BitVec.extractLsb'_append_eq_of_le (by decide)]
  exact BitVec.extractLsb'_append_eq_left

theorem subField_commandWord (op sub : BitVec 4) (c : Byte) : subField (commandWord op sub c) = sub := by
  rw [subField, commandWord, BitVec.extractLsb'_append_eq_of_le (by decide)]
  exact BitVec.extractLsb'_append_eq_right

theorem dataField_commandWord (op sub : BitVec 4) (c : Byte) : dataField (commandWord op sub c) = c :=
  BitVec.extractLsb'_append_eq_right

/-- R82: a word with operation 1 is not the NOP word, so the APPEND row takes it and gives back its 8 raw bits. -/
theorem decodeCommand_appendWord (c : Byte) : decodeCommand (0x1000#16 ||| c.setWidth 16) = .append c := by
  rw [appendWord_eq_commandWord]
  have hop := opField_commandWord 0x1#4 0x0#4 c
  have hne : commandWord 0x1#4 0x0#4 c ≠ 0x0000#16 := fun h => absurd (h ▸ hop) (by decide)
  rw [decodeCommand, if_neg hne, if_pos ⟨hop, subField_commandWord _ _ c⟩, dataField_commandWord]

/-! ## One accepted APPEND -/

/-- The effect of an APPEND with room in the buffer (R202). -/
def storeChar (c : Byte) (s : State) : State :=
  { s with mb := Memory.write s.mb s.len.toNat c, len := s.len + 1#8 }

@[simp] theorem storeChar_len (c : Byte) (s : State) : (storeChar c s).len = s.len + 1#8 := rfl
@[simp] theorem storeChar_mb (c : Byte) (s : State) :
    (storeChar c s).mb = Memory.write s.mb s.len.toNat c := rfl

/-- R64: the message reads MB below `len` only. -/
theorem message_storeChar {c : Byte} {s : State} (hlen : (s.len + 1#8).toNat = s.len.toNat + 1) :
    message (storeChar c s) = message s ++ [c] := by
  have hbelow : ∀ i ∈ List.range s.len.toNat,
      Memory.read (Memory.write s.mb s.len.toNat c) i = Memory.read s.mb i :=
    fun i hi => read_write_other _ _ (List.mem_range.mp hi).ne
  simp only [message, storeChar_len, storeChar_mb, hlen, List.range_succ, List.filterMap_append,
    List.filterMap_congr hbelow]
  simp [read_write_same]

/-- R200: the edge that accepts a command word runs its instruction. -/
theorem step_of_accepts {s : State} (hw : s.cfg.wellFormed = true) (hacc : s.accepts = true) :
    step s = mapNext dropInput (exec (decodeCommand s.sampled.cmd) s) := by
  obtain ⟨hrst, hvalid, hidle⟩ := (accepts_iff s).mp hacc
  rw [step_of_wellFormed hw, clockEdge_idle hrst hidle, idleEdge, if_pos hvalid, executeCommand]

theorem step_append_of_room {c : Byte} {s : State} (hw : s.cfg.wellFormed = true) (hacc : s.accepts = true)
    (hcmd : decodeCommand s.sampled.cmd = .append c) (hroom : s.len.toNat < s.cfg.msgMax) :
    step s = .next (dropInput (storeChar c s)) := by
  rw [step_of_accepts hw hacc, hcmd, exec_append_of_room hroom]
  rfl

/-! ## Consecutive APPENDs -/

/-- The host offers the APPEND of each character of `cs` in turn at the coming edges, without reset. -/
def OffersAppends (cs : List Byte) (s : State) : Prop :=
  ∀ k c, cs[k]? = some c → s.inputAt k = ⟨false, true, 0x1000#16 ||| c.setWidth 16, (s.inputAt k).suppress⟩

theorem OffersAppends.head {c : Byte} {cs : List Byte} {s : State} (h : OffersAppends (c :: cs) s) :
    s.sampled = ⟨false, true, 0x1000#16 ||| c.setWidth 16, s.sampled.suppress⟩ := h 0 c rfl

/-- The offers that remain after the first edge, whatever that edge did to the other fields. -/
theorem OffersAppends.tail {c : Byte} {cs : List Byte} {s t : State} (h : OffersAppends (c :: cs) s)
    (hin : t.inputs = s.inputs) : OffersAppends cs (dropInput t) := by
  intro k d hk
  have hshift : (dropInput t).inputAt k = s.inputAt (k + 1) := by
    rw [inputAt_dropInput, State.inputAt, hin, State.inputAt]
  rw [hshift]
  exact h (k + 1) d hk

/-- The first of the offers is accepted in IDLE, and decodes to its APPEND. -/
theorem OffersAppends.accepts {c : Byte} {cs : List Byte} {s : State} (h : OffersAppends (c :: cs) s)
    (hidle : s.phase = .idle) : s.accepts = true ∧ decodeCommand s.sampled.cmd = .append c := by
  rw [accepts_iff, h.head]
  exact ⟨⟨rfl, rfl, hidle⟩, decodeCommand_appendWord c⟩

/-- The run over the offers, with only the part of the invariant that it needs and keeps. -/
theorem run_appends {cs : List Byte} {s : State} (hreg : RegistersOk s) (hidle : s.phase = .idle)
    (hroom : s.len.toNat + cs.length ≤ s.cfg.msgMax) (hoffers : OffersAppends cs s) :
    ∃ t, run cs.length s = .next t ∧ message t = message s ++ cs ∧ t.len.toNat = s.len.toNat + cs.length
      ∧ t.phase = .idle := by
  induction cs generalizing s with
  | nil => exact ⟨s, rfl, (List.append_nil _).symm, rfl, hidle⟩
  | cons c cs ih =>
    rw [List.length_cons] at hroom
    have hfirst : s.len.toNat < s.cfg.msgMax := by omega
    obtain ⟨hacc, hcmd⟩ := hoffers.accepts hidle
    have hstep := step_append_of_room hreg.wellFormed hacc hcmd hfirst
    have hlen := hreg.toNat_len_add_one hfirst
    have hnext : RegistersOk (dropInput (storeChar c s)) := { hreg.append c hfirst with }
    have hroom' : (s.len + 1#8).toNat + cs.length ≤ s.cfg.msgMax := by omega
    obtain ⟨t, hrun, hmsg, htlen, htidle⟩ := ih hnext hidle hroom' (hoffers.tail rfl)
    refine ⟨t, ?run, ?message, ?len, htidle⟩
    case run => rw [List.length_cons, run_succ _ hstep, hrun]
    case message =>
      calc message t = message (storeChar c s) ++ cs := hmsg
        _ = message s ++ c :: cs := by rw [message_storeChar hlen, List.append_assoc, List.singleton_append]
    case len =>
      rw [dropInput_len, storeChar_len] at htlen
      rw [List.length_cons]
      omega

/-- Settles O45: by induction over the characters, each accepted APPEND puts its character at the end of the message
and leaves the block in IDLE for the next one. -/
theorem appendsBuildTheMessageInOrder : Obligations.AppendsBuildTheMessageInOrder :=
  fun _ _ hinv hidle hroom hoffers => run_appends (registersOk_of_inv hinv) hidle hroom hoffers

end Sys2Proof.Machine
end

section
/-! PROOFS. The statements of 30_encoding.md: what each row of the two decoders answers, said once per decoder, and
from it that decoding and encoding are inverse, which words are illegal, and the words of the opcode table. -/

namespace Sys2Proof.Machine

/-! ## The fields of a command word -/

/-- R81: a command word is its three fields. -/
theorem commandWord_fields (w : CmdWord) : commandWord (opField w) (subField w) (dataField w) = w := by
  rw [commandWord, opField, subField, dataField, BitVec.extractLsb'_append_extractLsb'_eq_extractLsb' (by decide),
    BitVec.extractLsb'_append_extractLsb'_eq_extractLsb' (by decide)]
  exact BitVec.extractLsb'_eq_self

/-- The words of NOP, CLEAR and SEND: an operation above 12 zeros. -/
theorem eq_append_zeros_iff (w : CmdWord) (op : BitVec 4) :
    w = op ++ 0#12 ↔ w.extractLsb' 12 4 = op ∧ w.extractLsb' 0 12 = 0#12 := by
  constructor
  · rintro rfl
    exact ⟨BitVec.extractLsb'_append_eq_left, BitVec.extractLsb'_append_eq_right⟩
  · rintro ⟨hop, hlow⟩
    rw [← hop, ← hlow, BitVec.extractLsb'_append_extractLsb'_eq_extractLsb' (by decide)]
    exact BitVec.extractLsb'_eq_self.symm

/-- R82: the mask of the full word keeps every bit. -/
theorem and_fullMask (w : CmdWord) : w &&& 0xFFFF#16 = w := BitVec.and_allOnes

theorem dataField_eq_setWidth (w : CmdWord) : dataField w = w.setWidth 8 :=
  (BitVec.setWidth_eq_extractLsb' (by decide)).symm

/-! ## The rows of the command decoder -/

theorem isLegalCommand_iff (w : CmdWord) :
    isLegalCommand w = true ↔
      w = 0x0000#16 ∨ (opField w = 0x1#4 ∧ subField w = 0x0#4) ∨ w = 0x2000#16 ∨ w = 0x3000#16 := by
  simp only [isLegalCommand, Bool.or_eq_true, decide_eq_true_eq, appendRow_mask_iff_fields]

/-- R82: the APPEND row takes the words of operation 1 and sub-field 0. -/
theorem decodeCommand_appendRow {w : CmdWord} (h : opField w = 0x1#4 ∧ subField w = 0x0#4) :
    decodeCommand w = .append (dataField w) := by
  rw [← decodeCommand_appendWord, appendWord_eq_commandWord, ← h.1, ← h.2, commandWord_fields]

/-- R83: the illegal words are those of no legal command. -/
theorem decodeCommand_eq_illegal_iff (w : CmdWord) : decodeCommand w = .illegal w ↔ isLegalCommand w = false := by
  rw [← Bool.not_eq_true, isLegalCommand_iff]
  constructor
  · rintro hill (rfl | h | rfl | rfl)
    case inr.inl => exact absurd ((decodeCommand_appendRow h).symm.trans hill) (by simp)
    all_goals exact absurd hill (by decide)
  · intro hw
    push Not at hw
    obtain ⟨hnop, happend, hclear, hsend⟩ := hw
    rw [decodeCommand, if_neg hnop, if_neg fun h => happend h.1 h.2, if_neg hclear, if_neg hsend]

/-- R82, R83: decoding a command word loses nothing of it, and gives operands that its row admits. -/
theorem encode_decodeCommand (w : CmdWord) :
    encode (decodeCommand w) = w ∧ (decodeCommand w).wellFormed = true := by
  cases hw : isLegalCommand w with
  | false =>
    rw [(decodeCommand_eq_illegal_iff w).mpr hw]
    exact ⟨rfl, by rw [Instr.wellFormed, hw]; rfl⟩
  | true =>
    obtain rfl | h | rfl | rfl := (isLegalCommand_iff w).mp hw
    case inr.inl =>
      rw [decodeCommand_appendRow h]
      exact ⟨(h.1 ▸ h.2 ▸ commandWord_fields w :), rfl⟩
    all_goals exact ⟨rfl, rfl⟩

/-- Settles O6: the masked words are the rows of `isLegalCommand_iff`, and none of the full words
has the operation of APPEND. -/
theorem commandWordDecodesByItsRow : Obligations.CommandWordDecodesByItsRow := by
  intro w
  rw [and_fullMask, appendRow_mask_iff_fields, ← dataField_eq_setWidth]
  refine ⟨?nop, decodeCommand_appendRow, ?clear, ?send, ?illegal, ?nopAppend, ?appendClear, ?appendSend⟩
  case nop => rintro rfl; rfl
  case clear => rintro rfl; rfl
  case send => rintro rfl; rfl
  case illegal =>
    intro hnop happend hclear hsend
    rw [ne_eq, appendRow_mask_iff_fields] at happend
    rw [decodeCommand_eq_illegal_iff, ← Bool.not_eq_true, isLegalCommand_iff]
    exact not_or.mpr ⟨hnop, not_or.mpr ⟨happend, not_or.mpr ⟨hclear, hsend⟩⟩⟩
  case nopAppend => rintro ⟨rfl, h⟩; exact absurd h (by decide)
  case appendClear => rintro ⟨h, rfl⟩; exact absurd h (by decide)
  case appendSend => rintro ⟨h, rfl⟩; exact absurd h (by decide)

/-- R82 by the operation field: the legal operations 0, 2 and 3 have 12 zeros below them, and operation 1 a zero
sub-field. -/
theorem isLegalCommand_iff_fields (w : CmdWord) :
    isLegalCommand w = true ↔
      (w.extractLsb' 12 4 = 0x0#4 ∧ w.extractLsb' 0 12 = 0#12)
      ∨ (w.extractLsb' 12 4 = 0x1#4 ∧ w.extractLsb' 8 4 = 0x0#4)
      ∨ (w.extractLsb' 12 4 = 0x2#4 ∧ w.extractLsb' 0 12 = 0#12)
      ∨ (w.extractLsb' 12 4 = 0x3#4 ∧ w.extractLsb' 0 12 = 0#12) := by
  rw [isLegalCommand_iff, ← eq_append_zeros_iff, ← eq_append_zeros_iff, ← eq_append_zeros_iff]
  rfl

/-- Settles O7: by the operation, which is one of 0 to 3 or at least 4. -/
theorem illegalWordsAreTheFourClasses : Obligations.IllegalWordsAreTheFourClasses := by
  intro w
  rw [decodeCommand_eq_illegal_iff, ← Bool.not_eq_true, isLegalCommand_iff_fields]
  generalize w.extractLsb' 12 4 = op
  obtain rfl | rfl | rfl | rfl | hop : op = 0x0#4 ∨ op = 0x1#4 ∨ op = 0x2#4 ∨ op = 0x3#4 ∨ 4 ≤ op.toNat := by
    bv_omega
  case inr.inr.inr.inr =>
    have hne : ∀ k : BitVec 4, k.toNat < 4 → op ≠ k := by
      rintro k hk rfl
      omega
    simp [hop, hne]
  all_goals simp

/-! ## The rows of the code-word decoder -/

theorem isDahBit_iff (v : CodeWord) : isDahBit v = true ↔ v.toNat % 2 = 1 := by
  rw [isDahBit, BitVec.getLsbD, Nat.testBit_zero, decide_eq_true_eq]

/-- R88: the remainder is v >> 1. -/
theorem remainderField_toNat (v : CodeWord) : (remainderField v).toNat = v.toNat / 2 := by
  rw [remainderField, BitVec.extractLsb'_toNat, Nat.shiftRight_eq_div_pow]
  omega

theorem remainderField_eq_iff (v : CodeWord) (r : BitVec 15) : remainderField v = r ↔ r.toNat = v.toNat / 2 := by
  rw [← remainderField_toNat, BitVec.toNat_inj, eq_comm]

/-- R88: the four rows of the code-word decoder, each with the words it takes. -/
theorem decodeCodeWord_cases (v : CodeWord) :
    (v.toNat = 0 ∧ decodeCodeWord v = .cwInvalid) ∨
    (v.toNat = 1 ∧ decodeCodeWord v = .cwEnd) ∨
    (2 ≤ v.toNat ∧ v.toNat % 2 = 0 ∧ decodeCodeWord v = .cwDit (remainderField v)) ∨
    (2 ≤ v.toNat ∧ v.toNat % 2 = 1 ∧ decodeCodeWord v = .cwDah (remainderField v)) := by
  unfold decodeCodeWord
  split_ifs with h0 h1 hdah
  · exact .inl ⟨congrArg BitVec.toNat h0, rfl⟩
  · exact .inr (.inl ⟨congrArg BitVec.toNat h1, rfl⟩)
  · exact .inr (.inr (.inr ⟨two_le_codeWord (by tauto), (isDahBit_iff v).mp hdah, rfl⟩))
  · rw [isDahBit_iff] at hdah
    exact .inr (.inr (.inl ⟨two_le_codeWord (by tauto), by omega, rfl⟩))

/-- Settles O8: each row of the decoder excludes the other three by the value and by its parity. -/
theorem codeWordDecodesByItsStepKind : Obligations.CodeWordDecodesByItsStepKind := by
  intro v
  obtain ⟨hv, hd⟩ | ⟨hv, hd⟩ | ⟨hv, hbit, hd⟩ | ⟨hv, hbit, hd⟩ := decodeCodeWord_cases v
  · simp [hd, hv]
  · simp [hd, hv]
  · have h0 : v.toNat ≠ 0 := by omega
    have h1 : v.toNat ≠ 1 := by omega
    simp [hd, hv, hbit, h0, h1, remainderField_eq_iff]
  · have h0 : v.toNat ≠ 0 := by omega
    have h1 : v.toNat ≠ 1 := by omega
    simp [hd, hv, hbit, h0, h1, remainderField_eq_iff]

/-! ## The code word of a symbol step -/

theorem symbolWord_toNat (r : BitVec 15) (b : BitVec 1) : (symbolWord r b).toNat = 2 * r.toNat + b.toNat := by
  rw [symbolWord, BitVec.toNat_append, ← Nat.shiftLeft_add_eq_or_of_lt b.isLt, Nat.shiftLeft_eq, pow_one, mul_comm]

theorem decodeCodeWord_symbolWord_dit {r : BitVec 15} (h : r ≠ 0#15) :
    decodeCodeWord (symbolWord r 0#1) = .cwDit r := by
  have hv : (symbolWord r 0#1).toNat = 2 * r.toNat := symbolWord_toNat r 0#1
  have hr : r.toNat ≠ 0 := by bv_omega
  obtain ⟨-, -, hdit, -⟩ := codeWordDecodesByItsStepKind (symbolWord r 0#1)
  exact (hdit r).mpr (by omega)

theorem decodeCodeWord_symbolWord_dah {r : BitVec 15} (h : r ≠ 0#15) :
    decodeCodeWord (symbolWord r 1#1) = .cwDah r := by
  have hv : (symbolWord r 1#1).toNat = 2 * r.toNat + 1 := symbolWord_toNat r 1#1
  have hr : r.toNat ≠ 0 := by bv_omega
  obtain ⟨-, -, -, hdah⟩ := codeWordDecodesByItsStepKind (symbolWord r 1#1)
  exact (hdah r).mpr (by omega)

/-- R88: decoding a code word loses nothing of it, and the remainder of a symbol step is not 0. -/
theorem encode_decodeCodeWord (v : CodeWord) :
    encode (decodeCodeWord v) = v ∧ (decodeCodeWord v).wellFormed = true ∧ (decodeCodeWord v).format = .cw := by
  have hword : symbolWord (remainderField v) (BitVec.ofBool (isDahBit v)) = v := remainder_append_bit v
  have hrem : 2 ≤ v.toNat → remainderField v ≠ 0#15 := by
    intro hv h0
    have hhalf : 0 = v.toNat / 2 := (remainderField_eq_iff v 0#15).mp h0
    omega
  obtain ⟨hv, hd⟩ | ⟨hv, hd⟩ | ⟨hv, hbit, hd⟩ | ⟨hv, hbit, hd⟩ := decodeCodeWord_cases v
  · rw [hd]
    exact ⟨BitVec.eq_of_toNat_eq hv.symm, rfl, rfl⟩
  · rw [hd]
    exact ⟨BitVec.eq_of_toNat_eq hv.symm, rfl, rfl⟩
  · rw [show isDahBit v = false by rw [← Bool.not_eq_true, isDahBit_iff]; omega] at hword
    rw [hd]
    exact ⟨hword, decide_eq_true (hrem hv), rfl⟩
  · rw [(isDahBit_iff v).mpr hbit] at hword
    rw [hd]
    exact ⟨hword, decide_eq_true (hrem hv), rfl⟩

/-- Settles O5: by the format, each decoder's own rows. -/
theorem encodeOfDecode : Obligations.EncodeOfDecode := by
  rintro (_ | _) w
  · obtain ⟨hword, hwf⟩ := encode_decodeCommand w
    exact ⟨hword, hwf, decodeCommand_format w⟩
  · exact encode_decodeCodeWord w

/-! ## Decoding what an instruction encodes to -/

theorem decodeFormat_encode {i : Instr} (h : i.wellFormed = true) : decodeFormat i.format (encode i) = i := by
  cases i with
  | nop => rfl
  | append c =>
    change decodeCommand (commandWord 0x1#4 0x0#4 c) = .append c
    rw [← appendWord_eq_commandWord, decodeCommand_appendWord]
  | clear => rfl
  | send => rfl
  | illegal w => exact (decodeCommand_eq_illegal_iff w).mpr (by simpa [Instr.wellFormed] using h)
  | cwInvalid => rfl
  | cwEnd => rfl
  | cwDit r => exact decodeCodeWord_symbolWord_dit (of_decide_eq_true h)
  | cwDah r => exact decodeCodeWord_symbolWord_dah (of_decide_eq_true h)

/-- R84: a step that fits CW bits has a code word below 2 ^ CW. -/
theorem encode_lt_of_fitsCw {i : Instr} {cw : Nat} (hf : i.format = .cw) (hfit : i.fitsCw cw = true) (hcw : 1 ≤ cw) :
    (encode i).toNat < 2 ^ cw := by
  have hone : 1 < 2 ^ cw := Nat.one_lt_two_pow (by omega)
  cases i with
  | cwInvalid => exact Nat.two_pow_pos cw
  | cwEnd => exact hone
  | cwDit r => exact symbolWord_toNat r 0#1 ▸ of_decide_eq_true hfit
  | cwDah r => exact symbolWord_toNat r 1#1 ▸ of_decide_eq_true hfit
  | _ => cases hf

/-- A table row's word of the width of a format decodes as a word of that format. -/
theorem decodeTableWord_of_format {nbits : Nat} {f : Format} {w : BitVec 16} (hf : formatOfWidth nbits = some f)
    (hw : w.toNat < 2 ^ nbits) : decodeTableWord nbits w.toNat = some (decodeFormat f w) := by
  rw [decodeTableWord, decodeBits, hf]
  simp only [hw, if_true, BitVec.ofNat_toNat, BitVec.setWidth_eq]

/-- Settles O4: the decoder of the instruction's format gives it back, and the table's row of that width is read by this
decoder. -/
theorem decodeOfEncode : Obligations.DecodeOfEncode := by
  intro i hwf
  have hdec := decodeFormat_encode hwf
  refine ⟨hdec, fun hf => ?cmd16, fun hf hfit => ?cw⟩ <;> rw [hf] at hdec
  case cmd16 => rw [decodeTableWord_of_format rfl (encode i).isLt, hdec]
  case cw => rw [decodeTableWord_of_format rfl (encode_lt_of_fitsCw hf hfit (by decide)), hdec]

/-- Settles O9: the decoder evaluates each of the nine words. -/
theorem writtenOutWordsDecode : Obligations.WrittenOutWordsDecode :=
  ⟨rfl, rfl, rfl, rfl, rfl, rfl, rfl, rfl, rfl⟩

end Sys2Proof.Machine
end

section
/-! PROOFS. COLLAPSE as a sum of powers of 2 (R86): the weight of each symbol, the inverse of EXPAND, and the bound by
the number of symbols. -/

namespace Sys2Proof.Machine

/-- `s_i 2^i`, the weight of symbol `i` of the sequence (R86). -/
def symbolWeight (ss : List Symbol) (i : Nat) : Nat := if ss[i]? = some .dah then 2 ^ i else 0

theorem symbolWeight_cons_zero (s : Symbol) (ss : List Symbol) : symbolWeight (s :: ss) 0 = s.toBit.toNat := by
  cases s <;> rfl

theorem symbolWeight_cons_succ (s : Symbol) (ss : List Symbol) (i : Nat) :
    symbolWeight (s :: ss) (i + 1) = 2 * symbolWeight ss i := by
  simp only [symbolWeight, List.getElem?_cons_succ, Nat.pow_succ', mul_ite, mul_zero]

/-- The weights of a sequence are its first symbol's bit and twice the weights of the rest. -/
theorem sum_symbolWeight_cons (s : Symbol) (ss : List Symbol) :
    ((List.range (s :: ss).length).map (symbolWeight (s :: ss))).sum
      = s.toBit.toNat + 2 * ((List.range ss.length).map (symbolWeight ss)).sum := by
  have hrest : symbolWeight (s :: ss) ∘ Nat.succ = fun i => 2 * symbolWeight ss i :=
    funext (symbolWeight_cons_succ s ss)
  rw [List.length_cons, List.range_succ_eq_map, List.map_cons, List.sum_cons, List.map_map, hrest,
    List.sum_map_mul_left, symbolWeight_cons_zero]

theorem collapse_cons (s : Symbol) (ss : List Symbol) : collapse (s :: ss) = 2 * collapse ss + s.toBit.toNat := by
  cases s <;> rfl

theorem collapse_eq_sum (ss : List Symbol) :
    collapse ss = 2 ^ ss.length + ((List.range ss.length).map (symbolWeight ss)).sum := by
  induction ss with
  | nil => rfl
  | cons s ss ih =>
    rw [collapse_cons, sum_symbolWeight_cons, ih, List.length_cons, Nat.pow_succ']
    omega

/-- R86: the terminating bit of L symbols stands at place L. -/
theorem collapse_bounds (ss : List Symbol) : 2 ^ ss.length ≤ collapse ss ∧ collapse ss < 2 ^ (ss.length + 1) := by
  induction ss with
  | nil => decide
  | cons s ss ih =>
    have hbit : s.toBit.toNat < 2 := s.toBit.isLt
    rw [collapse_cons, List.length_cons, Nat.pow_succ' (n := ss.length + 1), Nat.pow_succ' (n := ss.length)]
    omega

theorem collapse_lt_iff (ss : List Symbol) {cw : Nat} (hcw : 1 ≤ cw) :
    collapse ss < 2 ^ cw ↔ ss.length ≤ cw - 1 := by
  obtain ⟨hlow, hhigh⟩ := collapse_bounds ss
  constructor
  · intro h
    have hlt : ss.length < cw := (Nat.pow_lt_pow_iff_right Nat.one_lt_two).mp (hlow.trans_lt h)
    omega
  · intro h
    exact hhigh.trans_le (Nat.pow_le_pow_right Nat.two_pos (by omega))

/-- R89: the first symbol of a code word is its bit 0. -/
theorem firstSymbol_toBit_toNat (v : CodeWord) : (firstSymbol v).toBit.toNat = v.toNat % 2 := by
  have hbit : v.getLsbD 0 = true ↔ v.toNat % 2 = 1 := isDahBit_iff v
  rw [firstSymbol]
  split_ifs with h
  · exact (hbit.mp h).symm
  · rw [hbit] at h
    change 0 = v.toNat % 2
    omega

/-- R131, R135: with fuel for every shift down to the terminating 1, no symbol of the code word is lost. -/
theorem collapse_expandLoop {fuel : Nat} {v : CodeWord} (hpos : 1 ≤ v.toNat) (hfuel : v.toNat < 2 ^ (fuel + 1)) :
    collapse (expandLoop fuel v) = v.toNat := by
  induction fuel generalizing v with
  | zero =>
    change 1 = v.toNat
    omega
  | succ fuel ih =>
    rw [expandLoop]
    split_ifs with h1
    · exact h1 ▸ rfl
    · have htwo : 2 ≤ v.toNat := by bv_omega
      have hrest : collapse (expandLoop fuel (shiftRight1 v)) = (shiftRight1 v).toNat := by
        rw [Nat.pow_succ'] at hfuel
        apply ih <;> rw [shiftRight1_toNat] <;> omega
      rw [collapse_cons, hrest, shiftRight1_toNat, firstSymbol_toBit_toNat, Nat.div_add_mod]

theorem collapse_expand {v : CodeWord} (h : 1 ≤ v.toNat) : collapse (expand v) = v.toNat := by
  have hne : v ≠ 0#16 := by bv_omega
  rw [expand, if_neg hne]
  exact collapse_expandLoop h (by omega)

/-- Settles O15: by induction over the symbols, each of which doubles the value and adds its bit; and over the fuel of
EXPAND. -/
theorem collapseIsTheWeightedSum : Obligations.CollapseIsTheWeightedSum :=
  ⟨collapse_eq_sum, fun _ hv => collapse_expand (by omega), rfl, fun ss _ hcw => collapse_lt_iff ss hcw⟩

end Sys2Proof.Machine
end

section
/-! PROOFS. The statements of 40_code_table.md: UPCASE (R112), and LOOKUP as the lowest matching index of the table
with a miss that is space (R113, R114, R118). -/

namespace Sys2Proof.Machine

/-! ## UPCASE -/

theorem upcase_toNat_of_lowercase {c : Byte} (h : 0x61 ≤ c.toNat ∧ c.toNat ≤ 0x7A) :
    (upcase c).toNat = c.toNat - 0x20 := by
  rw [upcase, if_pos h]
  bv_omega

theorem upcase_of_not_lowercase {c : Byte} (h : ¬ (0x61 ≤ c.toNat ∧ c.toNat ≤ 0x7A)) : upcase c = c := if_neg h

/-- R112 and WF5 (R111): nothing UPCASE answers is lowercase. -/
theorem upcase_not_lowercase (c : Byte) : ¬ (0x61 ≤ (upcase c).toNat ∧ (upcase c).toNat ≤ 0x7A) := by
  by_cases h : 0x61 ≤ c.toNat ∧ c.toNat ≤ 0x7A
  · rw [upcase_toNat_of_lowercase h]
    omega
  · rwa [upcase_of_not_lowercase h]

/-- Settles O10: by whether the character is lowercase; UPCASE's own answer never is, so a second UPCASE keeps it. -/
theorem upcaseMapsLowercaseOnly : Obligations.UpcaseMapsLowercaseOnly := fun c =>
  ⟨upcase_toNat_of_lowercase, upcase_of_not_lowercase, upcase_of_not_lowercase (upcase_not_lowercase c)⟩

/-! ## The search of LOOKUP -/

theorem lookupIn_cons_self (c : Byte) (as : List Byte) (v : CodeWord) (vs : List CodeWord) :
    lookupIn (c :: as) (v :: vs) c = v := if_pos rfl

theorem lookupIn_cons_of_ne {a c : Byte} (h : a ≠ c) (as : List Byte) (v : CodeWord) (vs : List CodeWord) :
    lookupIn (a :: as) (v :: vs) c = lookupIn as vs c := if_neg h

/-- R113: the lowest index that matches gives the code word. -/
theorem lookupIn_of_lowest {as : List Byte} {vs : List CodeWord} {c : Byte} {i : Nat} {v : CodeWord}
    (hmatch : as[i]? = some c) (hlowest : ∀ j, j < i → as[j]? ≠ some c) (hcode : vs[i]? = some v) :
    lookupIn as vs c = v := by
  induction as generalizing vs i with
  | nil => cases hmatch
  | cons a as ih =>
    cases vs with
    | nil => cases hcode
    | cons w vs =>
      cases i with
      | zero =>
        obtain rfl : a = c := Option.some.inj hmatch
        obtain rfl : w = v := Option.some.inj hcode
        exact lookupIn_cons_self a as w vs
      | succ i =>
        have hne : a ≠ c := fun h => hlowest 0 i.succ_pos (congrArg some h)
        rw [lookupIn_cons_of_ne hne]
        exact ih hmatch (fun j hj => hlowest (j + 1) (Nat.succ_lt_succ hj)) hcode

/-- R114: a miss is SPACE_CODE. -/
theorem lookupIn_of_notMem {as : List Byte} {c : Byte} (h : c ∉ as) (vs : List CodeWord) :
    lookupIn as vs c = spaceCode := by
  induction as generalizing vs with
  | nil => rfl
  | cons a as ih =>
    obtain ⟨hne, has⟩ := List.ne_and_not_mem_of_not_mem_cons h
    cases vs with
    | nil => rfl
    | cons w vs => rw [lookupIn_cons_of_ne (Ne.symm hne), ih has]

/-! ## LOOKUP -/

theorem conformsAtSpace_iff (cfg : Config) :
    cfg.conformsAtSpace = true ↔ cfg.alphabet[0]? = some 0x20#8 ∧ cfg.codes[0]? = some spaceCode := by
  simp only [Config.conformsAtSpace, Bool.and_eq_true, decide_eq_true_eq]

/-- R116: space stands at index 0, below which no index is. -/
theorem lookup_space {cfg : Config} (h : cfg.conformsAtSpace = true) : lookup cfg 0x20#8 = 1#16 := by
  obtain ⟨hmatch, hcode⟩ := (conformsAtSpace_iff cfg).mp h
  exact lookupIn_of_lowest hmatch (fun j hj => absurd hj j.not_lt_zero) hcode

theorem lookup_of_notMem {cfg : Config} {c : Byte} (h : c ∉ cfg.alphabet) : lookup cfg c = 1#16 :=
  lookupIn_of_notMem h cfg.codes

/-- WF2 (R111) and R114: neither an entry nor a miss is 0. -/
theorem lookup_ne_zero {cfg : Config} (hw : cfg.wellFormed = true) (c : Byte) : lookup cfg c ≠ 0#16 := by
  obtain hspace | hmem := lookupIn_space_or_mem cfg.alphabet cfg.codes c
  · rw [lookup, hspace]
    decide
  · exact (codes_of_wellFormed hw _ hmem).1

/-- WF4 (R111): a character stands at one index at most. -/
theorem alphabet_index_unique {cfg : Config} (hw : cfg.wellFormed = true) {c : Byte} {i j : Nat}
    (hi : cfg.alphabet[i]? = some c) (hj : cfg.alphabet[j]? = some c) : i = j := by
  obtain ⟨-, -, -, -, -, hdistinct, -⟩ := (wellFormed_parts cfg).mp hw
  obtain ⟨hlt, -⟩ := List.getElem?_eq_some_iff.mp hi
  exact (List.getElem?_inj hlt ((alphabetDistinct_iff cfg).mp hdistinct)).mp (hi.trans hj.symm)

/-- Settles O11: the search by induction over the table's entries; the checks WF2 and WF4 give the rest. -/
theorem lookupIsLowestIndexElseSpace : Obligations.LookupIsLowestIndexElseSpace := fun _ c =>
  ⟨fun _ _ => lookupIn_of_lowest, lookup_of_notMem, lookup_space, fun hw => lookup_ne_zero hw c,
    fun hw _ _ => alphabet_index_unique hw⟩

/-- Settles O12: the miss is the constant 1, which a conforming table holds for space. -/
theorem unknownCharacterHasTheCodeOfSpace : Obligations.UnknownCharacterHasTheCodeOfSpace := fun _ _ hspace hmiss =>
  ⟨lookup_of_notMem hmiss, lookup_space hspace⟩

/-! ## The code word of a character -/

/-- R84, R88: the decoded step of a code word of `cw` bits fits `cw` bits. -/
theorem fitsCw_decodeCodeWord {v : CodeWord} {cw : Nat} (h : v.toNat < 2 ^ cw) :
    (decodeCodeWord v).fitsCw cw = true := by
  have hrem := remainderField_toNat v
  obtain ⟨-, hd⟩ | ⟨-, hd⟩ | ⟨-, hbit, hd⟩ | ⟨-, hbit, hd⟩ := decodeCodeWord_cases v <;> rw [hd]
  · rfl
  · rfl
  · exact decide_eq_true (by omega)
  · exact decide_eq_true (by omega)

/-- Settles O13: by WF2 and WF3, and for a miss by the value 1, which is not 0 and fits every CW. -/
theorem everyCharacterHasAnAdmittedCode : Obligations.EveryCharacterHasAnAdmittedCode := by
  intro cfg c hw
  have hpos : 1 ≤ (codeOf cfg c).toNat := by
    have hne : codeOf cfg c ≠ 0#16 := lookup_ne_zero hw (upcase c)
    bv_omega
  have hlt : (codeOf cfg c).toNat < 2 ^ cfg.cw := codeOf_lt hw c
  obtain ⟨hinvalid, -⟩ := codeWordDecodesByItsStepKind (codeOf cfg c)
  refine ⟨hpos, hlt, fun hd => ?_, fitsCw_decodeCodeWord hlt⟩
  have hzero : (codeOf cfg c).toNat = 0 := hinvalid.mp hd
  omega

end Sys2Proof.Machine
end

section
/-! PROOFS. The statements of 41_symbol_encoder.md: EXPAND read off COLLAPSE, which determines its sequence (R131, R136);
the shifts of the unpacker (R135); and what each unpacker step writes (R132 to R134). -/

namespace Sys2Proof.Machine

/-! ## A sequence of symbols from the number that COLLAPSE gives -/

/-- R86: the terminating bit is the highest set bit, and stands at place L. -/
theorem log2_collapse (ss : List Symbol) : Nat.log2 (collapse ss) = ss.length := by
  have hbounds := collapse_bounds ss
  have hpos : 0 < 2 ^ ss.length := Nat.two_pow_pos _
  exact (Nat.log2_eq_iff (by omega)).mpr hbounds

/-- R86, R89: symbol `i` is bit `i`. -/
theorem getElem?_eq_testBit_collapse {ss : List Symbol} {i : Nat} (hi : i < ss.length) :
    ss[i]? = some (if (collapse ss).testBit i then .dah else .dit) := by
  induction ss generalizing i with
  | nil => exact absurd hi i.not_lt_zero
  | cons s ss ih =>
    cases i with
    | zero => cases s <;> simp [collapse]
    | succ i =>
      have hbit : s.toBit.toNat < 2 := s.toBit.isLt
      have hhalf : collapse (s :: ss) / 2 = collapse ss := by
        rw [collapse_cons]
        omega
      rw [List.getElem?_cons_succ, Nat.testBit_succ, hhalf]
      exact ih (Nat.lt_of_succ_lt_succ hi)

theorem collapse_injective : Function.Injective collapse := by
  intro ss ts h
  have hlen : ss.length = ts.length := by rw [← log2_collapse, h, log2_collapse]
  refine List.ext_getElem?' fun i hi => ?_
  rw [← hlen, max_self] at hi
  rw [getElem?_eq_testBit_collapse hi, getElem?_eq_testBit_collapse (hlen ▸ hi), h]

/-! ## EXPAND -/

theorem length_expand {v : CodeWord} (h : 1 ≤ v.toNat) : (expand v).length = Nat.log2 v.toNat := by
  rw [← log2_collapse, collapse_expand h]

theorem getElem?_expand {v : CodeWord} {i : Nat} (h : 1 ≤ v.toNat) (hi : i < Nat.log2 v.toNat) :
    (expand v)[i]? = some (if v.getLsbD i then .dah else .dit) := by
  rw [← length_expand h] at hi
  rw [getElem?_eq_testBit_collapse hi, collapse_expand h, BitVec.testBit_toNat]

/-- Settles O14: `expand v` is the sequence that collapses to `v`, and such a sequence is read off the bits of `v`. -/
theorem expandIsTheBitsBelowTheTerminator : Obligations.ExpandIsTheBitsBelowTheTerminator := by
  refine ⟨rfl, rfl, fun v hv => ?_⟩
  have hpos : 1 ≤ v.toNat := by omega
  exact ⟨length_expand hpos, fun i hi => getElem?_expand hpos hi⟩

theorem expand_ne_nil {v : CodeWord} (h : 2 ≤ v.toNat) : expand v ≠ [] := by
  intro hnil
  have hone : collapse (expand v) = v.toNat := collapse_expand (by omega)
  rw [hnil] at hone
  change 1 = v.toNat at hone
  omega

/-- R136, the converse: both sides collapse to the same number, which 16 bits hold. -/
theorem expand_collapse {ss : List Symbol} (hlen : ss.length ≤ 15) :
    expand (BitVec.ofNat 16 (collapse ss)) = ss := by
  have hfit : collapse ss < 2 ^ 16 := (collapse_lt_iff ss (by decide)).mpr hlen
  have hword : (BitVec.ofNat 16 (collapse ss)).toNat = collapse ss := by
    rw [BitVec.toNat_ofNat, Nat.mod_eq_of_lt hfit]
  have hpos : 1 ≤ collapse ss := (Nat.two_pow_pos _).trans_le (collapse_bounds ss).1
  apply collapse_injective
  rw [collapse_expand (hword.symm ▸ hpos), hword]

/-- Settles O16: COLLAPSE undoes EXPAND and is injective, so EXPAND undoes COLLAPSE where the number fits the word. -/
theorem expandAndCollapseAreInverse : Obligations.ExpandAndCollapseAreInverse :=
  ⟨rfl, fun _ hv => ⟨expand_ne_nil hv, collapse_expand (by omega)⟩, fun _ _ hlen => expand_collapse hlen⟩

/-! ## The shifts of the unpacker -/

/-- R135: a quotient by 2 ^ k is 1 where the highest set bit is bit `k`. -/
theorem shiftRight1_iterate_eq_one_iff {v : CodeWord} (h : 1 ≤ v.toNat) (k : Nat) :
    shiftRight1^[k] v = 1#16 ↔ k = Nat.log2 v.toNat := by
  have hpow : 0 < 2 ^ k := Nat.two_pow_pos k
  calc shiftRight1^[k] v = 1#16
      ↔ v.toNat / 2 ^ k = 1 := by rw [← BitVec.toNat_inj, shiftRight1_iterate_toNat]; rfl
    _ ↔ 2 ^ k ≤ v.toNat ∧ v.toNat < 2 ^ (k + 1) := by rw [Nat.div_eq_iff hpow, Nat.pow_succ]; omega
    _ ↔ k = Nat.log2 v.toNat := by rw [← Nat.log2_eq_iff (by omega), eq_comm]

theorem shiftRight1_iterate_zero_ne_one (k : Nat) : shiftRight1^[k] 0#16 ≠ 1#16 := by
  intro h
  have hone := congrArg BitVec.toNat h
  rw [shiftRight1_iterate_toNat] at hone
  simp at hone

/-- Settles O17: `k` shifts divide by 2 ^ k, which gives 1 for one `k` alone, and 0 from 0. -/
theorem shiftingReachesTheSentinel : Obligations.ShiftingReachesTheSentinel := by
  refine ⟨fun v hv => ⟨shiftRight1_iterate_eq_one_iff hv, fun cw hfit => ?_⟩, shiftRight1_iterate_zero_ne_one⟩
  have hlt : Nat.log2 v.toNat < cw := (Nat.log2_lt (by omega)).mpr hfit
  omega

/-! ## The symbol step -/

/-- R132: every register that a symbol step writes, with the length of its MARK in units. -/
theorem unpackStep_eq (v : CodeWord) (s : State) :
    unpackStep v s = { s with
      sym := if v.getLsbD 0 then .dah else .dit
      sr := v >>> 1
      phase := .mark
      timer := s.cfg.ditCycles * (if v.getLsbD 0 then 3 else 1) - 1 } := by
  unfold unpackStep firstSymbol
  cases v.getLsbD 0 <;> rfl

/-- R88: a code word v ≥ 2 decodes to a symbol step. -/
theorem exec_symbol_of_two_le {v : CodeWord} (h : 2 ≤ v.toNat) (s : State) :
    exec (decodeCodeWord v) s = .next (unpackStep v s) :=
  exec_symbol v s (by bv_omega) (by bv_omega)

/-- R132: a remainder is left, the terminating 1 at least. -/
theorem one_le_shiftRight1 {v : CodeWord} (h : 2 ≤ v.toNat) : 1 ≤ (shiftRight1 v).toNat := by
  rw [shiftRight1_toNat]
  omega

/-- R137: the shift fills the top bit of a CW-bit register with zero. -/
theorem shiftRight1_topBit {v : CodeWord} {cw : Nat} (hcw : 1 ≤ cw) (hfit : v.toNat < 2 ^ cw) :
    (shiftRight1 v).getLsbD (cw - 1) = false := by
  rw [shiftRight1, BitVec.getLsbD_ushiftRight, Nat.add_sub_cancel' hcw]
  exact Nat.testBit_lt_two_pow hfit

/-- Settles O18: a code word v ≥ 2 decodes to the symbol step of `v` itself; `v` of at least 2 in CW bits has CW ≥ 1. -/
theorem symbolStepEmitsTheLowBit : Obligations.SymbolStepEmitsTheLowBit := by
  intro v s hv
  refine ⟨by rw [exec_symbol_of_two_le hv, unpackStep_eq], one_le_shiftRight1 hv, fun hfit => ?_⟩
  have hcw : s.cfg.cw ≠ 0 := by
    intro h0
    rw [h0] at hfit
    omega
  exact shiftRight1_topBit (Nat.one_le_iff_ne_zero.mpr hcw) hfit

/-- Settles O19: the code word of CW.DIT or CW.DAH has the remainder after its first shift and the instruction's own
first symbol, so both symbol steps complete. -/
theorem ditAndDahComplete : Obligations.DitAndDahComplete := by
  intro r s
  constructor
  · change Host.Outcome.next (unpackStep (symbolWord r 0#1) s) = _
    rw [unpackStep, firstSymbol_dit, shiftRight1_symbolWord, markCycles_dit]
    rfl
  · change Host.Outcome.next (unpackStep (symbolWord r 1#1) s) = _
    rw [unpackStep, firstSymbol_dah, shiftRight1_symbolWord, markCycles_dah]
    rfl

/-! ## END and INVALID -/

theorem exec_cwEnd (s : State) : exec .cwEnd s = .next (endOfCode s) := rfl

/-- R134: INVALID is END by another code word. -/
theorem exec_cwInvalid_eq_cwEnd (s : State) : exec .cwInvalid s = exec .cwEnd s := rfl

/-- R133 at the end of an ELEM_GAP. -/
theorem endOfCode_of_elemGap {s : State} (h : s.phase = .elemGap) :
    endOfCode s = { s with phase := .letterSpace, timer := 3 * s.cfg.ditCycles - 1 } := if_pos h

/-- R133 at a character start. -/
theorem endOfCode_of_charStart {s : State} (h : s.phase = .warmup ∨ s.phase = .letterSpace) :
    endOfCode s = { s with phase := .charSpace, timer := 3 * s.cfg.ditCycles - 1 } := by
  have hgap : s.phase ≠ .elemGap := by rcases h with h | h <;> simp [h]
  exact if_neg hgap

/-- Settles O20: the hold depends on whether the code word was decoded in an ELEM_GAP. -/
theorem endOfCodeEntersTheHold : Obligations.EndOfCodeEntersTheHold := by
  intro s
  rw [exec_cwEnd]
  exact ⟨fun h => congrArg _ (endOfCode_of_elemGap h), fun h => congrArg _ (endOfCode_of_charStart h)⟩

/-- R88: the code word 0 alone decodes INVALID. -/
theorem decodeCodeWord_ne_cwInvalid {v : CodeWord} (h : 1 ≤ v.toNat) : decodeCodeWord v ≠ .cwInvalid := by
  intro hd
  obtain ⟨hinvalid, -⟩ := codeWordDecodesByItsStepKind v
  have hzero : v.toNat = 0 := hinvalid.mp hd
  omega

/-- Settles O21: INVALID runs END; WF2 and the miss value keep 0 from a character start, and R47 (c) keeps it from `sr`
in an ELEM_GAP. -/
theorem invalidBehavesAsEndAndIsUnreachable : Obligations.InvalidBehavesAsEndAndIsUnreachable := by
  refine ⟨fun s => ?asEnd, fun cfg c hw => ?table, fun v s t hv hexec => ?symbolStep, fun s hinv hgap => ?gap⟩
  case asEnd =>
    rw [exec_cwInvalid_eq_cwEnd]
    obtain ⟨hgap, hstart⟩ := endOfCodeEntersTheHold s
    exact ⟨hgap, hstart, rfl⟩
  case table =>
    obtain ⟨-, -, hcode, -⟩ := everyCharacterHasAnAdmittedCode cfg c hw
    exact ⟨fun h0 => (codes_of_wellFormed hw _ h0).1 rfl, lookup_of_notMem, hcode⟩
  case symbolStep =>
    rw [exec_symbol_of_two_le hv] at hexec
    obtain rfl : _ = t := Host.Outcome.next.inj hexec
    exact one_le_shiftRight1 hv
  case gap =>
    obtain ⟨-, -, -, hsymbol, -⟩ := hinv
    exact decodeCodeWord_ne_cwInvalid (hsymbol (.inr hgap)).1

end Sys2Proof.Machine
end

section
/-! PROOFS. The statements of 42_keying_driver.md: the lengths of the segments (R151, R160), the countdown of one segment
as a run (R153), and what the end of a segment can do, said once: the message ends, or a segment begins at its full
length (R154).  The gate's edges (R157) are read off that. -/

namespace Sys2Proof.Machine

/-! ## The lengths of the segments -/

/-- R152, with the factor in front as R151's table has it. -/
theorem markCycles_dah_eq_letterCycles (c : Config) : markCycles c .dah = letterCycles c :=
  Nat.mul_comm c.ditCycles 3

/-- Settles O22: the unit of every row is DIT_CYCLES, which is the length of a Dit. -/
theorem segmentLengthsAndRatios : Obligations.SegmentLengthsAndRatios := by
  intro c sym
  have hdit : markCycles c .dit = c.ditCycles := markCycles_dit c
  have hdah : markCycles c .dah = 3 * c.ditCycles := markCycles_dah_eq_letterCycles c
  have hgap : gapCycles c = c.ditCycles := gapCycles_eq c
  refine ⟨rfl, congrArg some hdit, congrArg some hdah, congrArg some hgap, rfl, rfl, rfl, ?_, hdah.symm, ?_⟩
  · rw [hdah, hdit]
  · rw [hdit]
    rfl

/-- R6: no segment has length 0. -/
theorem dur_pos {c : Config} (hw : c.wellFormed = true) {p : Phase} {sym : Symbol} {d : Nat}
    (hd : dur c p sym = some d) : 1 ≤ d := by
  obtain ⟨-, -, -, -, hdit, hwarmup, -⟩ := ranges_of_wellFormed hw
  cases p <;> cases sym <;> simp [dur] at hd <;> omega

/-! ## One edge of a segment -/

/-- R154, the countdown. -/
theorem step_of_timer_ne_zero {s : State} (hw : s.cfg.wellFormed = true) (hrst : s.sampled.rst = false)
    (hp : InSegment s) (ht : s.timer ≠ 0) : step s = .next (dropInput (tick s)) := by
  rw [step_of_wellFormed hw, clockEdge_segment hrst hp, runSegment, if_pos ht, mapNext_next]

/-- R154, the end. -/
theorem step_of_timer_zero {s : State} (hw : s.cfg.wellFormed = true) (hrst : s.sampled.rst = false)
    (hp : InSegment s) (ht : s.timer = 0) : step s = mapNext dropInput (endOfSegment s) := by
  rw [step_of_wellFormed hw, clockEdge_segment hrst hp, runSegment, if_neg (not_not.mpr ht)]

/-! ## The countdown as a run -/

/-- The state after `k` edges of the countdown of one segment. -/
def countdown (k : Nat) (s : State) : State := { s with timer := s.timer - k, inputs := s.inputs.drop k }

@[simp] theorem countdown_cfg (k : Nat) (s : State) : (countdown k s).cfg = s.cfg := rfl
@[simp] theorem countdown_phase (k : Nat) (s : State) : (countdown k s).phase = s.phase := rfl
@[simp] theorem countdown_timer (k : Nat) (s : State) : (countdown k s).timer = s.timer - k := rfl

theorem countdown_zero (s : State) : countdown 0 s = s := rfl

theorem countdown_dropInput_tick (k : Nat) (s : State) :
    countdown k (dropInput (tick s)) = countdown (k + 1) s := by
  simp [countdown, dropInput, tick, Nat.sub_sub, Nat.add_comm 1 k]

theorem sampled_countdown (k : Nat) (s : State) : (countdown k s).sampled = s.inputAt k := by
  simp [State.sampled, State.inputAt, countdown]

/-- Without reset a segment counts down, one cycle an edge, and changes nothing else. -/
theorem run_countdown {k : Nat} {s : State} (hw : s.cfg.wellFormed = true) (hp : InSegment s) (hk : k ≤ s.timer)
    (hrst : ∀ j, j < k → (s.inputAt j).rst = false) : run k s = .next (countdown k s) := by
  induction k generalizing s with
  | zero => rw [run_zero, countdown_zero]
  | succ k ih =>
    have hstep := step_of_timer_ne_zero hw (hrst 0 k.succ_pos) hp (by omega)
    have hrst' : ∀ j, j < k → ((dropInput (tick s)).inputAt j).rst = false := by
      intro j hj
      rw [inputAt_dropInput]
      exact hrst (j + 1) (by omega)
    have hk' : k ≤ (dropInput (tick s)).timer := by
      rw [dropInput_timer, tick_timer]
      omega
    rw [run_succ k hstep, ih (s := dropInput (tick s)) hw hp hk' hrst', countdown_dropInput_tick]

/-- Settles O23: `enter` loads d - 1, which the countdown brings to 0 in d - 1 edges; the next edge is then the end. -/
theorem segmentHoldsForItsLength : Obligations.SegmentHoldsForItsLength := by
  intro s p d hw hgate hd hnorst
  have hp : InSegment (enter p d s) := (gate_iff_inSegment _).mp hgate
  have hrun : ∀ k, k < d → run k (enter p d s) = .next (countdown k (enter p d s)) := fun k hk =>
    run_countdown hw hp (Nat.le_sub_one_of_lt hk) fun j hj => hnorst j (by omega)
  refine ⟨fun k hk => ⟨_, hrun k hk, rfl, rfl⟩, fun t ht => ?_⟩
  obtain rfl : countdown (d - 1) (enter p d s) = t :=
    Host.Outcome.next.inj ((hrun (d - 1) (by omega)).symm.trans ht)
  have hrst : (countdown (d - 1) (enter p d s)).sampled.rst = false := by
    rw [sampled_countdown]
    exact hnorst (d - 1) (le_refl _)
  exact step_of_timer_zero hw hrst hp (Nat.sub_self _)

/-! ## What the end of a segment does -/

/-- The first cycle of a segment, its whole length still to come (R154). -/
structure BeginsSegment (s : State) : Prop where
  gate : s.phase.gate = true
  full : dur s.cfg s.phase s.sym = some (s.timer + 1)

theorem beginsSegment_enter {s : State} {p : Phase} {d : Nat} (hw : s.cfg.wellFormed = true) (hp : p.gate = true)
    (hd : dur s.cfg p s.sym = some d) : BeginsSegment (enter p d s) := by
  have hload : d - 1 + 1 = d := Nat.sub_add_cancel (dur_pos hw hd)
  exact ⟨hp, hd.trans (congrArg some hload.symm)⟩

/-- A decoded code word begins a hold, or the MARK of the symbol that it has just put in `sym`. -/
theorem beginsSegment_exec_codeWord {v : CodeWord} {s t : State} (hw : s.cfg.wellFormed = true)
    (h : exec (decodeCodeWord v) s = .next t) : BeginsSegment t := by
  rcases exec_codeWord_cases h with ⟨-, rfl⟩ | ⟨-, rfl⟩
  · rcases endOfCode_cases s with ⟨-, he⟩ | ⟨-, he⟩ <;> rw [he] <;> exact beginsSegment_enter hw rfl rfl
  · exact beginsSegment_enter hw rfl rfl

/-- R171: the message ends exactly at `i = len`. -/
theorem startChar_stops_or_begins {i : BitVec 8} {s t : State} (hw : s.cfg.wellFormed = true)
    (h : startChar i s = .next t) :
    (i = s.len ∧ t.phase = .idle ∧ t.timer = 0) ∨ (i ≠ s.len ∧ BeginsSegment t) := by
  rcases startChar_cases h with ⟨hi, rfl⟩ | ⟨hi, -, c, -, hexec⟩
  · exact .inl ⟨hi, rfl, rfl⟩
  · exact .inr ⟨hi, beginsSegment_exec_codeWord (s := { s with idx := i }) hw hexec⟩

/-- The running segment is the last one of the message: the WARMUP of an empty message, or the LETTER_SPACE after its
last character. -/
abbrev LastSegment (s : State) : Prop :=
  (s.phase = .warmup ∧ s.len = 0#8) ∨ (s.phase = .letterSpace ∧ s.idx + 1#8 = s.len)

/-- R154: after the last segment of the message comes IDLE, and after any other the next segment. -/
theorem endOfSegment_stops_or_begins {s t : State} (hw : s.cfg.wellFormed = true) (hp : InSegment s)
    (h : endOfSegment s = .next t) :
    (LastSegment s ∧ t.phase = .idle ∧ t.timer = 0) ∨ (¬ LastSegment s ∧ BeginsSegment t) := by
  rcases endOfSegment_cases hp h with ⟨hph, hstart⟩ | ⟨hph, rfl⟩ | ⟨hph, hexec⟩ | ⟨hph, rfl⟩ | ⟨hph, hstart⟩
  · have hlast : LastSegment s ↔ 0#8 = s.len := by simp [LastSegment, hph, eq_comm (a := s.len)]
    rw [hlast]
    exact startChar_stops_or_begins hw hstart
  · exact .inr ⟨by simp [LastSegment, hph], beginsSegment_enter hw rfl rfl⟩
  · exact .inr ⟨by simp [LastSegment, hph], beginsSegment_exec_codeWord hw hexec⟩
  · exact .inr ⟨by simp [LastSegment, hph], beginsSegment_enter hw rfl rfl⟩
  · have hlast : LastSegment s ↔ s.idx + 1#8 = s.len := by simp [LastSegment, hph]
    rw [hlast]
    exact startChar_stops_or_begins hw hstart

/-- Settles O24: whichever segment ends, IDLE or a full segment follows. -/
theorem segmentsAbut : Obligations.SegmentsAbut := by
  intro s t hw hgate hend
  have hp : InSegment s := (gate_iff_inSegment s).mp hgate
  rcases endOfSegment_stops_or_begins hw hp hend with ⟨-, hidle⟩ | ⟨-, hbegins⟩
  · exact .inl hidle
  · exact .inr ⟨hbegins.gate, hbegins.full⟩

/-! ## The edges of the gate -/

theorem dropInput_gateOut (s : State) : (dropInput s).gateOut = s.gateOut := rfl

/-- R204: of the commands only an unsuppressed SEND turns the gate on. -/
theorem CommandEffect.gateOut_iff {s t : State} {i : Instr} (h : CommandEffect s i t) (hp : s.phase = .idle) :
    t.gateOut = true ↔ i = .send ∧ s.sampled.suppress = false := by
  cases h with
  | suppressed hsup => simp [State.gateOut, hp, hsup]
  | send hsup => simp [State.gateOut, hsup]
  | _ => simp [State.gateOut, hp]

/-- The end of a segment turns the gate off exactly after the last one. -/
theorem endOfSegment_gateOut_iff {s t : State} (hw : s.cfg.wellFormed = true) (hp : InSegment s)
    (h : endOfSegment s = .next t) : t.gateOut = false ↔ LastSegment s := by
  rcases endOfSegment_stops_or_begins hw hp h with ⟨hlast, hidle, -⟩ | ⟨hlast, hbegins⟩
  · simp [State.gateOut, hidle, hlast]
  · simp [State.gateOut, hbegins.gate, hlast]

/-- Settles O25: an accepted command can only raise the gate, a reset and the end of a segment can only lower it, and
the other branches of a clock edge keep it. -/
theorem gateRisesAtSendAndFallsAtTheEnd : Obligations.GateRisesAtSendAndFallsAtTheEnd := by
  intro s t hstep
  obtain ⟨hw, u, hedge, rfl⟩ := step_next hstep
  rw [dropInput_gateOut]
  rcases clockEdge_cases hedge with ⟨hrst, rfl⟩ | ⟨hrst, hp, hvalid, rfl⟩ | ⟨hrst, hp, hvalid, hexec⟩
    | ⟨hrst, hp, htimer, rfl⟩ | ⟨hrst, hp, htimer, hend⟩ | ⟨hrst, hp, rfl⟩
  · have hacc : s.accepts = false := by simp [State.accepts, hrst]
    simp [State.gateOut, AcceptsSend, hacc, hrst]
  · have hacc : u.accepts = false := by simp [State.accepts, hvalid]
    simp [State.gateOut, AcceptsSend, hacc, hp]
  · have hacc := (accepts_iff s).mpr ⟨hrst, hvalid, hp⟩
    have hoff : s.gateOut = false := by simp [State.gateOut, hp]
    simp [AcceptsSend, hacc, hoff, (commandEffect_of_exec hexec).gateOut_iff hp]
  · have hacc := accepts_eq_false_of_busy hp.phase_ne_idle
    simp [State.gateOut, AcceptsSend, hacc, hrst, htimer]
  · have hacc := accepts_eq_false_of_busy hp.phase_ne_idle
    have hon : s.gateOut = true := (gate_iff_inSegment s).mpr hp
    simp [AcceptsSend, hacc, hon, hrst, htimer, endOfSegment_gateOut_iff hw hp hend]
  · have hacc : s.accepts = false := accepts_eq_false_of_busy (by rcases hp with hp | hp <;> simp [hp])
    rcases hp with hp | hp <;> simp [State.gateOut, AcceptsSend, hacc, hp]

end Sys2Proof.Machine
end

section
/-! PROOFS. One edge of the transmitter (43_message_transmitter.md sections 1 and 2): the branches of the step function,
the instruction an edge runs, what the end of each segment does, and that a busy edge neither reads the command port
nor writes the host's registers (R170 to R177, R182, R183). -/

namespace Sys2Proof.Machine

/-! ## The branches of one edge -/

theorem step_of_rst {s : State} (hw : s.cfg.wellFormed = true) (hrst : s.sampled.rst = true) :
    step s = .next (dropInput (resetRegisters s)) :=
  step_of_clockEdge hw (clockEdge_reset hrst)

theorem step_of_idle {s : State} (hw : s.cfg.wellFormed = true) (hrst : s.sampled.rst = false)
    (hp : s.phase = .idle) : step s = mapNext dropInput (idleEdge s) := by
  rw [step_of_wellFormed hw, clockEdge_idle hrst hp]

theorem step_of_unused {s : State} (hw : s.cfg.wellFormed = true) (hrst : s.sampled.rst = false)
    (hp : s.phase = .unused6 ∨ s.phase = .unused7) : step s = .next (dropInput { s with phase := .idle }) :=
  step_of_clockEdge hw (clockEdge_unused hrst hp)

/-- Settles O26: one rule per branch of R170. -/
theorem stepTakesOneOfFourBranches : Obligations.StepTakesOneOfFourBranches := by
  intro s hw
  refine ⟨step_of_rst hw, fun hrst hp => ?idle, fun hrst hgate => ?segment, fun hrst hp => step_of_unused hw hrst hp⟩
  case idle =>
    rw [step_of_idle hw hrst hp, idleEdge, executeCommand]
    split <;> rfl
  case segment =>
    have hp : InSegment s := (gate_iff_inSegment s).mp hgate
    split
    next ht => exact step_of_timer_ne_zero hw hrst hp ht
    next ht => exact step_of_timer_zero hw hrst hp (not_not.mp ht)

/-! ## The instruction an edge runs -/

/-- The end of the running segment starts character `i`: the first one after WARMUP, the next one after LETTER_SPACE. -/
abbrev StartsCharacter (s : State) (i : BitVec 8) : Prop :=
  s.phase = .warmup ∧ i = 0#8 ∨ s.phase = .letterSpace ∧ i = s.idx + 1#8

/-- R172, R176. -/
theorem step_of_startsCharacter {s : State} {i : BitVec 8} (hw : s.cfg.wellFormed = true)
    (hrst : s.sampled.rst = false) (ht : s.timer = 0) (hi : StartsCharacter s i) :
    step s = mapNext dropInput (startChar i s) := by
  rcases hi with ⟨hp, rfl⟩ | ⟨hp, rfl⟩
  · rw [step_of_timer_zero hw hrst (by simp [InSegment, hp]) ht, endOfSegment_warmup hp]
  · rw [step_of_timer_zero hw hrst (by simp [InSegment, hp]) ht, endOfSegment_letterSpace hp]

/-- R174: the end of an ELEM_GAP decodes `sr`. -/
theorem step_of_endOfGap {s : State} (hw : s.cfg.wellFormed = true) (hrst : s.sampled.rst = false) (ht : s.timer = 0)
    (hp : s.phase = .elemGap) : step s = mapNext dropInput (exec (decodeCodeWord s.sr) s) := by
  rw [step_of_timer_zero hw hrst (by simp [InSegment, hp]) ht, endOfSegment_elemGap hp]

/-- Settles O27: acceptance, the end of an ELEM_GAP and a character start are the three places of a decoder. -/
theorem stepRunsTheDecodedInstruction : Obligations.StepRunsTheDecodedInstruction := by
  intro s hw
  refine ⟨step_of_accepts hw, step_of_endOfGap hw, fun i c hrst ht hi hne hmax hread => ?_⟩
  rw [step_of_startsCharacter hw hrst ht hi, startChar_some hne hmax hread]

/-! ## The end of each segment -/

/-- R88: a code word of 0 or 1 has no symbol left. -/
theorem exec_endOfCode {v : CodeWord} (h : v = 1#16 ∨ v = 0#16) (s : State) :
    exec (decodeCodeWord v) s = .next (endOfCode s) := by
  rw [exec_codeWord, if_pos h.symm]

/-- R71: a character below `len` exists and has been written. -/
theorem RegistersOk.exists_read {s : State} (h : RegistersOk s) {i : Nat} (hi : i < s.len.toNat) :
    ∃ c, Memory.read s.mb i = some c :=
  Option.isSome_iff_exists.mp (h.written i hi)

/-- Settles O28: the end of the message, or the decoded code word of the character, at a character start. -/
theorem startCharEndsSpacesOrEmits : Obligations.StartCharEndsSpacesOrEmits := by
  intro s i hp
  refine ⟨startChar_end, fun c hne hmax hread => ⟨fun hspace => ?space, fun v hv htwo => ?symbol⟩,
    fun hinv hi => ?written⟩
  case space =>
    rw [startChar_some hne hmax hread, codeOf, exec_endOfCode hspace,
      endOfCode_of_charStart (s := { s with idx := i }) hp]
  case symbol =>
    rw [startChar_some hne hmax hread, codeOf, hv, exec_symbol_of_two_le htwo, unpackStep_eq]
  case written =>
    have hreg := registersOk_of_inv hinv
    exact ⟨hi.trans_le hreg.len_le, hreg.exists_read hi⟩

/-- Settles O29: neither end decodes anything. -/
theorem endOfMarkAndOfCharSpace : Obligations.EndOfMarkAndOfCharSpace := by
  intro s hw hrst ht
  refine ⟨fun hp => ?mark, fun hp => ?charSpace⟩
  case mark =>
    rw [step_of_timer_zero hw hrst (by simp [InSegment, hp]) ht, endOfSegment_mark hp, gapCycles_eq]
    rfl
  case charSpace =>
    rw [step_of_timer_zero hw hrst (by simp [InSegment, hp]) ht, endOfSegment_charSpace hp]
    rfl

/-- Settles O30: `sr` decodes to an end of code or to a symbol step. -/
theorem endOfGapEmitsTheNextSymbolOrEndsTheCharacter : Obligations.EndOfGapEmitsTheNextSymbolOrEndsTheCharacter := by
  intro s hw hrst hp ht
  rw [step_of_endOfGap hw hrst ht hp]
  refine ⟨fun hend => ?last, fun htwo => ?next⟩
  case last =>
    rw [exec_endOfCode hend, endOfCode_of_elemGap hp]
    rfl
  case next =>
    rw [exec_symbol_of_two_le htwo, unpackStep_eq]
    rfl

/-- Settles O31: both ends start a character, and in LETTER_SPACE `idx` is below `len`, which is at most 255. -/
theorem endOfWarmupAndOfLetterSpaceStartACharacter : Obligations.EndOfWarmupAndOfLetterSpaceStartACharacter := by
  intro s
  refine ⟨fun hw hrst ht hp => ?warmup, fun hw hrst ht hp => ?letterSpace, fun hinv hp => ?noWrap⟩
  case warmup => exact step_of_startsCharacter hw hrst ht (.inl ⟨hp, rfl⟩)
  case letterSpace => exact step_of_startsCharacter hw hrst ht (.inr ⟨hp, rfl⟩)
  case noWrap =>
    have hlt : s.idx.toNat < s.len.toNat :=
      (segmentOk_of_inv hinv (by simp [InSegment, hp])).idx_lt (by simp [hp])
    exact ⟨(registersOk_of_inv hinv).toNat_idx_add_one hlt, hlt⟩

/-! ## A busy edge and the command port -/

/-- The same registers before other inputs. -/
def withInputs (ins : List Inputs) (s : State) : State := { s with inputs := ins }

@[simp] theorem withInputs_inputs (ins : List Inputs) (s : State) : (withInputs ins s).inputs = ins := rfl

/-- The outcome of an operation that reads no input, on the same registers before other inputs. -/
def CarriesInputs (f : State → Host.Outcome State Fault Refusal) : Prop :=
  ∀ (ins : List Inputs) (s : State), f (withInputs ins s) = mapNext (withInputs ins) (f s)

theorem endOfCode_withInputs (ins : List Inputs) (s : State) :
    endOfCode (withInputs ins s) = withInputs ins (endOfCode s) := by
  rcases endOfCode_cases s with ⟨hp, he⟩ | ⟨hp, he⟩ <;> rw [he]
  · exact if_pos hp
  · exact if_neg hp

theorem carriesInputs_exec_codeWord (v : CodeWord) : CarriesInputs (exec (decodeCodeWord v)) := by
  intro ins s
  rw [exec_codeWord, exec_codeWord, mapNext_next]
  split
  · rw [endOfCode_withInputs]
  · rfl

theorem carriesInputs_startChar (i : BitVec 8) : CarriesInputs (startChar i) := by
  intro ins s
  by_cases hi : i = s.len
  · rw [startChar_end hi, startChar_end (s := withInputs ins s) hi]
    rfl
  · have hread : readEntry (withInputs ins s) i.toNat = readEntry s i.toNat := rfl
    unfold startChar
    rw [if_neg hi, if_neg (show ¬ i = (withInputs ins s).len from hi), hread]
    cases readEntry s i.toNat with
    | ok c => exact carriesInputs_exec_codeWord (codeOf s.cfg c) ins { s with idx := i }
    | error r => rfl

theorem carriesInputs_endOfSegment : CarriesInputs endOfSegment := by
  intro ins s
  have hp' : (withInputs ins s).phase = s.phase := rfl
  unfold endOfSegment
  rw [hp']
  cases s.phase
  case warmup => exact carriesInputs_startChar 0#8 ins s
  case elemGap => exact carriesInputs_exec_codeWord s.sr ins s
  case letterSpace => exact carriesInputs_startChar (s.idx + 1#8) ins s
  all_goals rfl

/-- An operation that reads no input writes none. -/
theorem CarriesInputs.inputs_eq {f : State → Host.Outcome State Fault Refusal} (hf : CarriesInputs f) {s t : State}
    (h : f s = .next t) : t.inputs = s.inputs := by
  have hself : f s = mapNext (withInputs s.inputs) (f s) := hf s.inputs s
  rw [h, mapNext_next] at hself
  rw [Host.Outcome.next.inj hself, withInputs_inputs]

/-- R182: a busy edge without reset is that of a host that asserts nothing, before the inputs that remain. -/
theorem step_of_busy {s : State} (hp : s.phase ≠ .idle) (hrst : s.sampled.rst = false) :
    step s = mapNext (withInputs (s.inputs.drop 1)) (step (withInputs [] s)) := by
  cases hw : s.cfg.wellFormed with
  | false => rw [step_of_illFormed hw, step_of_illFormed (s := withInputs [] s) hw, mapNext_refused]
  | true =>
    rcases phase_branches s with hidle | hseg | hunused
    · exact absurd hidle hp
    · by_cases ht : s.timer = 0
      · rw [step_of_timer_zero hw hrst hseg ht, step_of_timer_zero (s := withInputs [] s) hw rfl hseg ht,
          carriesInputs_endOfSegment]
        cases hend : endOfSegment s with
        | next t =>
          have hin : t.inputs = s.inputs := carriesInputs_endOfSegment.inputs_eq hend
          rw [← hin]
          rfl
        | fault r => rfl
        | refused r => rfl
      · rw [step_of_timer_ne_zero hw hrst hseg ht, step_of_timer_ne_zero (s := withInputs [] s) hw rfl hseg ht]
        rfl
    · rw [step_of_unused hw hrst hunused, step_of_unused (s := withInputs [] s) hw rfl hunused]
      rfl

/-- Settles O35: both edges are the one of a host that asserts nothing. -/
theorem busyEdgeIgnoresTheCommandPort : Obligations.BusyEdgeIgnoresTheCommandPort := by
  intro s a b later hp ha hb
  rw [step_of_busy (s := { s with inputs := a :: later }) hp ha,
    step_of_busy (s := { s with inputs := b :: later }) hp hb]
  rfl

/-! ## A busy edge and the host's registers -/

theorem step_keeps_hostSide {s t : State} (hp : s.phase ≠ .idle) (hrst : s.sampled.rst = false)
    (h : step s = .next t) : HostSideKept s t := by
  obtain ⟨-, u, hedge, rfl⟩ := step_next h
  rcases clockEdge_hostSide hedge with ⟨hreset, -⟩ | ⟨-, hacc, -⟩ | ⟨-, -, hkept⟩
  · exact absurd hrst (by simp [hreset])
  · exact absurd hacc (by simp [accepts_eq_false_of_busy hp])
  · exact { hkept with }

/-- Settles O36: a busy edge neither resets nor accepts. -/
theorem busyEdgeKeepsMessageAndFlags : Obligations.BusyEdgeKeepsMessageAndFlags := by
  intro s t hp hrst h
  obtain ⟨hlen, hmb, hovf, hill⟩ := step_keeps_hostSide hp hrst h
  exact ⟨hlen, hmb, hovf, hill, step_cfg h⟩

end Sys2Proof.Machine
end

section
/-! PROOFS. A transmission as a whole (43_message_transmitter.md section 3).  The segments still to come are a function
of the state, `upcoming`; every busy edge takes one cycle off the front of them, so a run shows exactly their phases
and ends in IDLE (R178).  The busy time (R179) is their length, and two SENDs of one message have the same segments
to come (R183). -/

namespace Sys2Proof.Machine

/-! ## The message by its characters -/

/-- R64, R71: a written message is the entries 0 to `len - 1`. -/
theorem message_eq_map {s : State} (h : RegistersOk s) :
    message s = (List.range s.len.toNat).map fun i => (Memory.read s.mb i).getD 0#8 := by
  refine List.filterMap_eq_map_iff_forall_eq_some.mpr fun i hi => ?_
  obtain ⟨c, hc⟩ := h.exists_read (List.mem_range.mp hi)
  simp [hc]

theorem length_message {s : State} (h : RegistersOk s) : (message s).length = s.len.toNat := by
  simp [message_eq_map h]

theorem drop_message_of_read {s : State} (h : RegistersOk s) {i : Nat} {c : Byte} (hi : i < s.len.toNat)
    (hc : Memory.read s.mb i = some c) : (message s).drop i = c :: (message s).drop (i + 1) := by
  have hlt : i < (message s).length := by rwa [length_message h]
  have hget : (message s)[i] = c := by simp [message_eq_map h, hc]
  rw [List.drop_eq_getElem_cons hlt, hget]

theorem HostSideKept.refl (s : State) : HostSideKept s s := ⟨rfl, rfl, rfl, rfl⟩

theorem HostSideKept.trans {s t u : State} (h : HostSideKept s t) (h' : HostSideKept t u) : HostSideKept s u :=
  ⟨h'.len.trans h.len, h'.mb.trans h.mb, h'.ovf.trans h.ovf, h'.ill.trans h.ill⟩

/-! ## The segments still to come -/

/-- The segments of the characters from index `i` on. -/
def charactersFrom (s : State) (i : Nat) : List Segment :=
  ((message s).drop i).flatMap fun c => codeSegments s.cfg (codeOf s.cfg c)

/-- What follows the last symbol or the CHAR_SPACE of the current character. -/
def afterCode (s : State) : List Segment :=
  ⟨.letterSpace, letterCycles s.cfg⟩ :: charactersFrom s (s.idx.toNat + 1)

/-- What follows when the symbols of `v` are still to be sent. -/
def restOfCode (s : State) (v : CodeWord) : List Segment := (expand v).flatMap (symbolSegments s.cfg) ++ afterCode s

/-- The segments after the running one. -/
def following (s : State) : List Segment :=
  match s.phase with
  | .warmup => charactersFrom s 0
  | .mark => ⟨.elemGap, gapCycles s.cfg⟩ :: restOfCode s s.sr
  | .elemGap => restOfCode s s.sr
  | .charSpace => afterCode s
  | .letterSpace => charactersFrom s (s.idx.toNat + 1)
  | .idle => []
  | .unused6 => []
  | .unused7 => []

/-- The rest of the running segment and the segments after it. -/
def upcoming (s : State) : List Segment :=
  if s.phase.gate then ⟨s.phase, s.timer + 1⟩ :: following s else []

theorem following_warmup {s : State} (h : s.phase = .warmup) : following s = charactersFrom s 0 := by
  simp [following, h]

theorem following_mark {s : State} (h : s.phase = .mark) :
    following s = ⟨.elemGap, gapCycles s.cfg⟩ :: restOfCode s s.sr := by
  simp [following, h]

theorem following_elemGap {s : State} (h : s.phase = .elemGap) : following s = restOfCode s s.sr := by
  simp [following, h]

theorem following_charSpace {s : State} (h : s.phase = .charSpace) : following s = afterCode s := by
  simp [following, h]

theorem following_letterSpace {s : State} (h : s.phase = .letterSpace) :
    following s = charactersFrom s (s.idx.toNat + 1) := by
  simp [following, h]

theorem upcoming_of_inSegment {s : State} (h : InSegment s) : upcoming s = ⟨s.phase, s.timer + 1⟩ :: following s :=
  if_pos ((gate_iff_inSegment s).mpr h)

theorem upcoming_of_idle {s : State} (h : s.phase = .idle) : upcoming s = [] := by
  simp [upcoming, h]

/-- R153: a segment that has just begun is to come at its own length. -/
theorem upcoming_enter {p : Phase} {d : Nat} {s : State} (hp : p.gate = true) (hd : 1 ≤ d) :
    upcoming (enter p d s) = ⟨p, d⟩ :: following (enter p d s) := by
  rw [upcoming, enter_phase, if_pos hp, enter_timer, Nat.sub_add_cancel hd]

theorem upcoming_dropInput (s : State) : upcoming (dropInput s) = upcoming s := rfl

theorem charactersFrom_len {s : State} (h : RegistersOk s) : charactersFrom s s.len.toNat = [] := by
  rw [charactersFrom, ← length_message h, List.drop_length, List.flatMap_nil]

theorem charactersFrom_of_read {s : State} (h : RegistersOk s) {i : Nat} {c : Byte} (hi : i < s.len.toNat)
    (hc : Memory.read s.mb i = some c) :
    charactersFrom s i = codeSegments s.cfg (codeOf s.cfg c) ++ charactersFrom s (i + 1) := by
  rw [charactersFrom, drop_message_of_read h hi hc, List.flatMap_cons, charactersFrom]

/-! ## The end of a segment begins the next one that is to come -/

/-- R131, R132: the symbol that a symbol step takes is the first of the code word's. -/
theorem expand_of_two_le {v : CodeWord} (h : 2 ≤ v.toNat) : expand v = firstSymbol v :: expand (shiftRight1 v) := by
  apply collapse_injective
  rw [collapse_cons, collapse_expand (one_le_shiftRight1 h), collapse_expand (by omega), shiftRight1_toNat,
    firstSymbol_toBit_toNat, Nat.div_add_mod]

theorem markCycles_pos {c : Config} (hw : c.wellFormed = true) (sym : Symbol) : 1 ≤ markCycles c sym :=
  dur_pos (p := .mark) hw rfl

theorem letterCycles_pos {c : Config} (hw : c.wellFormed = true) : 1 ≤ letterCycles c :=
  dur_pos (p := .letterSpace) (sym := .dit) hw rfl

theorem gapCycles_pos {c : Config} (hw : c.wellFormed = true) : 1 ≤ gapCycles c :=
  dur_pos (p := .elemGap) (sym := .dit) hw rfl

theorem restOfCode_of_two_le {v : CodeWord} (s : State) (h : 2 ≤ v.toNat) :
    restOfCode s v = symbolSegments s.cfg (firstSymbol v) ++ restOfCode s (shiftRight1 v) := by
  rw [restOfCode, expand_of_two_le h, List.flatMap_cons, List.append_assoc, restOfCode]

/-- R132, R178: after a symbol step the MARK and the gap of its symbol are to come, then the rest of the code. -/
theorem upcoming_unpackStep {v : CodeWord} {s : State} (hw : s.cfg.wellFormed = true) (hv : 2 ≤ v.toNat) :
    upcoming (unpackStep v s) = restOfCode s v := by
  rw [restOfCode_of_two_le s hv, unpackStep, upcoming_enter rfl (markCycles_pos hw _), following_mark rfl]
  rfl

theorem codeSegments_of_two_le {c : Config} {v : CodeWord} (h : 2 ≤ v.toNat) :
    codeSegments c v = (expand v).flatMap (symbolSegments c) ++ [⟨.letterSpace, letterCycles c⟩] :=
  if_neg (by omega)

theorem codeSegments_of_space {c : Config} {v : CodeWord} (h : v = 0#16 ∨ v = 1#16) :
    codeSegments c v = [⟨.charSpace, letterCycles c⟩, ⟨.letterSpace, letterCycles c⟩] := by
  refine if_pos ?_
  rcases h with rfl | rfl <;> decide

/-- R171: a code word decoded at the start of character `idx` begins that character's segments. -/
theorem upcoming_exec_characterCode {v : CodeWord} {s t : State} (hw : s.cfg.wellFormed = true)
    (hp : s.phase ≠ .elemGap) (h : exec (decodeCodeWord v) s = .next t) :
    upcoming t = codeSegments s.cfg v ++ charactersFrom s (s.idx.toNat + 1) := by
  rcases exec_codeWord_cases h with ⟨hspace, rfl⟩ | ⟨hv, rfl⟩
  · have hhold : endOfCode s = enter .charSpace (letterCycles s.cfg) s := if_neg hp
    rw [hhold, upcoming_enter rfl (letterCycles_pos hw), following_charSpace rfl, codeSegments_of_space hspace]
    rfl
  · rw [upcoming_unpackStep hw hv, codeSegments_of_two_le hv, List.append_assoc]
    rfl

/-- R171: a character start at `len` or below begins the segments of the characters from there on. -/
theorem upcoming_startChar {i : BitVec 8} {s t : State} (h : RegistersOk s) (hi : i.toNat ≤ s.len.toNat)
    (hp : s.phase ≠ .elemGap) (hstart : startChar i s = .next t) : upcoming t = charactersFrom s i.toNat := by
  rcases startChar_cases hstart with ⟨rfl, rfl⟩ | ⟨hne, -, c, hread, hexec⟩
  · rw [upcoming_of_idle rfl, charactersFrom_len h]
  · have hlt : i.toNat < s.len.toNat := lt_of_le_of_ne hi fun heq => hne (BitVec.eq_of_toNat_eq heq)
    rw [charactersFrom_of_read h hlt hread]
    exact upcoming_exec_characterCode (s := { s with idx := i }) h.wellFormed hp hexec

/-- R174: `sr` decoded at the end of an ELEM_GAP begins the rest of the code. -/
theorem upcoming_exec_remainder {s t : State} (hw : s.cfg.wellFormed = true) (hp : s.phase = .elemGap)
    (hpos : 1 ≤ s.sr.toNat) (h : exec (decodeCodeWord s.sr) s = .next t) : upcoming t = restOfCode s s.sr := by
  rcases exec_codeWord_cases h with ⟨hend, rfl⟩ | ⟨hv, rfl⟩
  · have hone : s.sr = 1#16 := hend.resolve_left fun h0 => absurd hpos (by simp [h0])
    have hhold : endOfCode s = enter .letterSpace (letterCycles s.cfg) s := if_pos hp
    rw [hhold, upcoming_enter rfl (letterCycles_pos hw), following_letterSpace rfl, hone]
    rfl
  · exact upcoming_unpackStep hw hv

/-- R172 to R176: what the end of a segment begins is what was to follow. -/
theorem upcoming_endOfSegment {s t : State} (hinv : Inv s) (hp : InSegment s) (h : endOfSegment s = .next t) :
    upcoming t = following s := by
  have hreg := registersOk_of_inv hinv
  have hseg := segmentOk_of_inv hinv hp
  rcases endOfSegment_cases hp h with ⟨hph, hstart⟩ | ⟨hph, rfl⟩ | ⟨hph, hexec⟩ | ⟨hph, rfl⟩ | ⟨hph, hstart⟩
  · rw [following_warmup hph]
    exact upcoming_startChar hreg (Nat.zero_le _) (by simp [hph]) hstart
  · rw [following_mark hph, upcoming_enter rfl (gapCycles_pos hreg.wellFormed)]
    rfl
  · rw [following_elemGap hph]
    exact upcoming_exec_remainder hreg.wellFormed hph (hseg.sr_pos (.inr hph)) hexec
  · rw [following_charSpace hph, upcoming_enter rfl (letterCycles_pos hreg.wellFormed)]
    rfl
  · have hlt : s.idx.toNat < s.len.toNat := hseg.idx_lt (by simp [hph])
    have hnext := hreg.toNat_idx_add_one hlt
    rw [following_letterSpace hph, ← hnext]
    exact upcoming_startChar hreg (hnext ▸ hlt) (by simp [hph]) hstart

/-! ## One busy edge -/

theorem phaseTrace_cons_succ (p : Phase) (d : Nat) (segs : List Segment) :
    phaseTrace (⟨p, d + 1⟩ :: segs) = p :: phaseTrace (⟨p, d⟩ :: segs) := rfl

theorem phaseTrace_cons_zero (p : Phase) (segs : List Segment) : phaseTrace (⟨p, 0⟩ :: segs) = phaseTrace segs := rfl

/-- No segment of a state that meets the invariant ends in a fault (R71, R230). -/
theorem exists_endOfSegment {s : State} (hinv : Inv s) (hp : InSegment s) : ∃ t, endOfSegment s = .next t := by
  have hself : SameVisible s s :=
    ⟨rfl, rfl, rfl, rfl, rfl, rfl, fun _ _ => rfl, fun _ => ⟨rfl, rfl⟩, fun _ => rfl⟩
  obtain ⟨t, -, ht, -⟩ := stepTogether_endOfSegment hinv hp hself
  exact ⟨t, ht⟩

/-- Every busy edge without reset takes the present cycle off the phases still to come. -/
theorem step_takes_a_cycle {s : State} (hinv : Inv s) (hp : InSegment s) (hrst : s.sampled.rst = false) :
    ∃ t, step s = .next t ∧ phaseTrace (upcoming s) = s.phase :: phaseTrace (upcoming t) := by
  have hw := (registersOk_of_inv hinv).wellFormed
  rw [upcoming_of_inSegment hp, phaseTrace_cons_succ]
  by_cases ht : s.timer = 0
  · obtain ⟨t, hend⟩ := exists_endOfSegment hinv hp
    refine ⟨dropInput t, by rw [step_of_timer_zero hw hrst hp ht, hend, mapNext_next], ?_⟩
    rw [ht, phaseTrace_cons_zero, upcoming_dropInput, upcoming_endOfSegment hinv hp hend]
  · refine ⟨dropInput (tick s), step_of_timer_ne_zero hw hrst hp ht, ?_⟩
    have htick : upcoming (tick s) = ⟨s.phase, s.timer - 1 + 1⟩ :: following s := upcoming_of_inSegment (s := tick s) hp
    rw [upcoming_dropInput, htick, Nat.sub_add_cancel (Nat.one_le_iff_ne_zero.mpr ht)]

/-! ## A run shows the phases still to come -/

/-- From `s` on the cycles show the phases `ps`, each of a segment, and then IDLE, with the host's registers kept. -/
structure Shows (ps : List Phase) (s : State) : Prop where
  cycle : ∀ k p, ps[k]? = some p → ∃ t, run k s = .next t ∧ t.phase = p ∧ InSegment t
  idle : ∃ t, run ps.length s = .next t ∧ t.phase = .idle ∧ HostSideKept s t

theorem Shows.nil {s : State} (h : s.phase = .idle) : Shows [] s :=
  ⟨fun _ _ hk => by simp at hk, s, rfl, h, .refl s⟩

theorem Shows.cons {s t : State} {ps : List Phase} (hp : InSegment s) (hstep : step s = .next t)
    (hkept : HostSideKept s t) (h : Shows ps t) : Shows (s.phase :: ps) s := by
  refine ⟨fun k p hk => ?cycle, ?idle⟩
  case cycle =>
    cases k with
    | zero => exact ⟨s, rfl, by simpa using hk, hp⟩
    | succ k =>
      rw [run_succ k hstep]
      exact h.cycle k p hk
  case idle =>
    obtain ⟨u, hrun, hidle, hkept'⟩ := h.idle
    exact ⟨u, (run_succ _ hstep).trans hrun, hidle, hkept.trans hkept'⟩

theorem idle_or_inSegment_of_inv {s : State} (h : Inv s) : s.phase = .idle ∨ InSegment s := by
  obtain ⟨-, ⟨h6, h7⟩, -⟩ := h
  exact (phase_branches s).imp_right fun hp => hp.resolve_right (not_or.mpr ⟨h6, h7⟩)

/-- A busy edge without reset moves the inputs on by one edge. -/
theorem inputAt_of_busy_step {s t : State} (hp : s.phase ≠ .idle) (hrst : s.sampled.rst = false)
    (h : step s = .next t) (k : Nat) : t.inputAt k = s.inputAt (k + 1) := by
  rw [step_of_busy hp hrst] at h
  obtain ⟨u, -, rfl⟩ := mapNext_eq_next h
  simp [State.inputAt]

/-- R178: by induction over the phases still to come, which every busy edge shortens by one. -/
theorem shows_upcoming {ps : List Phase} {s : State} (hinv : Inv s) (hps : phaseTrace (upcoming s) = ps)
    (hrst : ∀ j, j < ps.length → (s.inputAt j).rst = false) : Shows ps s := by
  induction ps generalizing s with
  | nil =>
    rcases idle_or_inSegment_of_inv hinv with hp | hp
    · exact .nil hp
    · simp [upcoming_of_inSegment hp, phaseTrace_cons_succ] at hps
  | cons p ps ih =>
    rcases idle_or_inSegment_of_inv hinv with hp | hp
    · simp [upcoming_of_idle hp, phaseTrace] at hps
    · have hnow : s.sampled.rst = false := hrst 0 (Nat.succ_pos _)
      have hbusy := hp.phase_ne_idle
      obtain ⟨t, hstep, htrace⟩ := step_takes_a_cycle hinv hp hnow
      obtain ⟨rfl, hrest⟩ : s.phase = p ∧ phaseTrace (upcoming t) = ps := by simpa [htrace] using hps
      refine .cons hp hstep (step_keeps_hostSide hbusy hnow hstep) ?_
      refine ih (stepKeepsTheInvariant s t hinv hstep) hrest fun j hj => ?_
      rw [inputAt_of_busy_step hbusy hnow hstep]
      exact hrst (j + 1) (Nat.succ_lt_succ hj)

/-! ## The accepted SEND -/

/-- The first cycle after the edge that accepts an unsuppressed SEND (R204). -/
def sent (s : State) : State := dropInput (enter .warmup s.cfg.warmupCycles { s with idx := 0#8 })

theorem step_of_acceptsSend {s : State} (hw : s.cfg.wellFormed = true) (h : AcceptsSend s) :
    step s = .next (sent s) := by
  obtain ⟨hacc, hcmd, hsup⟩ := h
  rw [step_of_accepts hw hacc, hcmd, exec_send_of_unsuppressed hsup]
  rfl

theorem hostSideKept_sent (s : State) : HostSideKept s (sent s) := ⟨rfl, rfl, rfl, rfl⟩

theorem inputAt_sent (s : State) (k : Nat) : (sent s).inputAt k = s.inputAt (k + 1) := inputAt_dropInput _ k

/-- R178, R204: with the SEND accepted, the whole timeline is to come. -/
theorem upcoming_sent {s : State} (hw : s.cfg.wellFormed = true) : upcoming (sent s) = timeline s.cfg (message s) := by
  have hwarmup : 1 ≤ s.cfg.warmupCycles := dur_pos (p := .warmup) (sym := .dit) hw rfl
  rw [sent, upcoming_dropInput, upcoming_enter rfl hwarmup, following_warmup rfl]
  rfl

/-- The phases of a transmission of the message of `s`, cycle by cycle. -/
abbrev transmission (s : State) : List Phase := phaseTrace (timeline s.cfg (message s))

theorem shows_transmission {s : State} (hinv : Inv s) (hsend : AcceptsSend s)
    (hrst : NoResetThrough s (transmission s).length) : Shows (transmission s) (sent s) := by
  have hw := (registersOk_of_inv hinv).wellFormed
  have hstep := step_of_acceptsSend hw hsend
  refine shows_upcoming (stepKeepsTheInvariant s _ hinv hstep) (congrArg phaseTrace (upcoming_sent hw)) fun j hj => ?_
  rw [inputAt_sent]
  exact hrst (j + 1) hj

theorem key_eq_decide_mark (p : Phase) : p.key = decide (p = .mark) := by cases p <;> rfl

theorem gateOut_of_inSegment {s : State} (h : InSegment s) : s.gateOut = true := (gate_iff_inSegment s).mpr h

/-- Settles O32: the accepting edge leaves the whole timeline to come, and the run shows what is to come. -/
theorem transmissionFollowsTheTimeline : Obligations.TransmissionFollowsTheTimeline := by
  intro s hinv hsend hrst
  have hstep := step_of_acceptsSend (registersOk_of_inv hinv).wellFormed hsend
  have hshows := shows_transmission hinv hsend hrst
  refine ⟨fun k p hk => ?cycle, ?idle⟩ <;> rw [run_succ _ hstep]
  case cycle =>
    obtain ⟨t, hrun, rfl, hseg⟩ := hshows.cycle k p hk
    exact ⟨t, hrun, rfl, gateOut_of_inSegment hseg, key_eq_decide_mark t.phase⟩
  case idle =>
    obtain ⟨t, hrun, hidle, -⟩ := hshows.idle
    exact ⟨t, hrun, hidle⟩

/-! ## The busy time -/

theorem length_phaseTrace (segs : List Segment) : (phaseTrace segs).length = (segs.map Segment.cycles).sum := by
  simp [phaseTrace, List.length_flatMap]

theorem sum_cycles_symbolSegments (c : Config) (sym : Symbol) :
    ((symbolSegments c sym).map Segment.cycles).sum = markCycles c sym + gapCycles c := rfl

/-- EMIT_SYMBOL lasts 2 u for a Dit and 4 u for a Dah. -/
theorem sum_cycles_symbols (c : Config) (ss : List Symbol) :
    ((ss.flatMap (symbolSegments c)).map Segment.cycles).sum
      = c.ditCycles * (2 * ss.count .dit + 4 * ss.count .dah) := by
  induction ss with
  | nil => rfl
  | cons sym ss ih =>
    rw [List.flatMap_cons, List.map_append, List.sum_append, ih, sum_cycles_symbolSegments, gapCycles_eq]
    cases sym with
    | dit =>
      rw [markCycles_dit, List.count_cons_self, List.count_cons_of_ne (by decide)]
      ring
    | dah =>
      rw [markCycles_dah, List.count_cons_self, List.count_cons_of_ne (by decide)]
      ring

/-- `units(c)` of R179 is the length of the character's segments. -/
theorem sum_cycles_codeSegments (c : Config) (v : CodeWord) :
    ((codeSegments c v).map Segment.cycles).sum = c.ditCycles * codeUnits v := by
  unfold codeSegments codeUnits
  split
  · change letterCycles c + (letterCycles c + 0) = _
    rw [letterCycles_eq]
    ring
  · rw [List.map_append, List.sum_append, sum_cycles_symbols, List.map_singleton, List.sum_singleton, letterCycles_eq]
    ring

theorem sum_cycles_characters (c : Config) (msg : List Byte) :
    ((msg.flatMap fun ch => codeSegments c (codeOf c ch)).map Segment.cycles).sum
      = c.ditCycles * (msg.map fun ch => codeUnits (codeOf c ch)).sum := by
  induction msg with
  | nil => rfl
  | cons ch msg ih =>
    rw [List.flatMap_cons, List.map_append, List.sum_append, ih, sum_cycles_codeSegments, List.map_cons, List.sum_cons,
      Nat.mul_add]

/-- R179: B is the length of the timeline. -/
theorem length_transmission (s : State) : (transmission s).length = busyCycles s.cfg (message s) := by
  rw [length_phaseTrace, timeline, List.map_cons, List.sum_cons, sum_cycles_characters, busyCycles]

/-- Settles O33: the timeline has B cycles, all of them in a segment. -/
theorem transmissionIsBusyForExactlyB : Obligations.TransmissionIsBusyForExactlyB := by
  intro s hinv hsend hrst
  have hstep := step_of_acceptsSend (registersOk_of_inv hinv).wellFormed hsend
  rw [← length_transmission] at hrst ⊢
  have hshows := shows_transmission hinv hsend hrst
  refine ⟨fun k hk => ?busy, ?ready⟩ <;> rw [run_succ _ hstep]
  case busy =>
    obtain ⟨t, hrun, -, hseg⟩ := hshows.cycle k _ (List.getElem?_eq_getElem hk)
    have hne := hseg.phase_ne_idle
    exact ⟨t, hrun, by simp [State.busy, hne], gateOut_of_inSegment hseg, by simp [State.cmdReady, hne]⟩
  case ready =>
    obtain ⟨t, hrun, hidle, -⟩ := hshows.idle
    exact ⟨t, hrun, by simp [State.busy, hidle], by simp [State.gateOut, hidle], by simp [State.cmdReady, hidle]⟩

/-! ## Two SENDs of one message -/

/-- Two runs that show the same phases agree in every cycle up to the first one in IDLE. -/
theorem Shows.same_phase {ps : List Phase} {s t : State} (hs : Shows ps s) (ht : Shows ps t) {k : Nat}
    (hk : k ≤ ps.length) : ∃ s' t', run k s = .next s' ∧ run k t = .next t' ∧ s'.phase = t'.phase := by
  rcases Nat.lt_or_eq_of_le hk with hlt | rfl
  · obtain ⟨s', hrun_s, hps, -⟩ := hs.cycle k _ (List.getElem?_eq_getElem hlt)
    obtain ⟨t', hrun_t, hpt, -⟩ := ht.cycle k _ (List.getElem?_eq_getElem hlt)
    exact ⟨s', t', hrun_s, hrun_t, hps.trans hpt.symm⟩
  · obtain ⟨s', hrun_s, hps, -⟩ := hs.idle
    obtain ⟨t', hrun_t, hpt, -⟩ := ht.idle
    exact ⟨s', t', hrun_s, hrun_t, hps.trans hpt.symm⟩

/-- Settles O37: both runs show the timeline of the one message, and gate and key are decoded from the phase. -/
theorem repeatedSendsAreIdentical : Obligations.RepeatedSendsAreIdentical := by
  intro s t hs ht hcfg hmsg hsend_s hsend_t hrst_s hrst_t
  have hstep_s := step_of_acceptsSend (registersOk_of_inv hs).wellFormed hsend_s
  have hstep_t := step_of_acceptsSend (registersOk_of_inv ht).wellFormed hsend_t
  have hsame : transmission t = transmission s := by rw [transmission, ← hcfg, ← hmsg]
  rw [← length_transmission] at hrst_s hrst_t ⊢
  have hshows_s := shows_transmission hs hsend_s hrst_s
  have hshows_t := hsame ▸ shows_transmission ht hsend_t (hsame ▸ hrst_t)
  refine ⟨fun k hk => ?cycle, ?idle⟩ <;> rw [run_succ _ hstep_s]
  case cycle =>
    rw [run_succ _ hstep_t]
    obtain ⟨s', t', hrun_s, hrun_t, hph⟩ := hshows_s.same_phase hshows_t hk
    exact ⟨s', t', hrun_s, hrun_t, hph, congrArg Phase.gate hph, congrArg Phase.key hph⟩
  case idle =>
    obtain ⟨s', hrun, hidle, hkept⟩ := hshows_s.idle
    obtain ⟨hlen, hmb, hovf, hill⟩ := (hostSideKept_sent s).trans hkept
    exact ⟨s', hrun, hidle, congrArg Phase.gate hidle, congrArg Phase.key hidle, hlen, hmb, hovf, hill⟩

/-! ## The empty message -/

/-- R172: the WARMUP of an empty message is its last segment, whatever MB holds. -/
theorem endOfSegment_of_empty {s : State} (hp : s.phase = .warmup) (hlen : s.len = 0#8) :
    endOfSegment s = .next (stopTransmission { s with idx := 0#8 }) := by
  rw [endOfSegment_warmup hp, startChar_end hlen.symm]

/-- Settles O34: the countdown of the WARMUP, whose end finds no character. -/
theorem emptyMessageHoldsTheGateForTheWarmup : Obligations.EmptyMessageHoldsTheGateForTheWarmup := by
  intro s hw hlen hsend hrst
  have hstep := step_of_acceptsSend hw hsend
  have hwarmup : 1 ≤ s.cfg.warmupCycles := dur_pos (p := .warmup) (sym := .dit) hw rfl
  have hseg : InSegment (sent s) := .inl rfl
  have hrun : ∀ k, k < s.cfg.warmupCycles → run k (sent s) = .next (countdown k (sent s)) := fun k hk =>
    run_countdown hw hseg (Nat.le_sub_one_of_lt hk) fun j hj => by
      rw [inputAt_sent]
      exact hrst (j + 1) (by omega)
  refine ⟨fun k hk => ?cycle, ?idle⟩ <;> rw [run_succ _ hstep]
  case cycle => exact ⟨_, hrun k hk, rfl, rfl⟩
  case idle =>
    obtain ⟨n, hn⟩ : ∃ n, s.cfg.warmupCycles = n + 1 := ⟨_, (Nat.sub_add_cancel hwarmup).symm⟩
    have hnow : (countdown n (sent s)).sampled.rst = false := by
      rw [sampled_countdown, inputAt_sent]
      exact hrst (n + 1) hn.ge
    have hzero : (countdown n (sent s)).timer = 0 := by
      rw [countdown_timer, show (sent s).timer = s.cfg.warmupCycles - 1 from rfl, hn]
      simp
    have hlast := step_of_timer_zero (s := countdown n (sent s)) hw hnow hseg hzero
    rw [endOfSegment_of_empty (s := countdown n (sent s)) rfl hlen, mapNext_next] at hlast
    rw [hn, run_add n 1 (hrun n (by omega)), run_succ 0 hlast]
    exact ⟨_, rfl, rfl, rfl, rfl⟩

end Sys2Proof.Machine
end

section
/-! PROOFS. The statements of 44_host_commands.md: which edges accept a word (R200), that an edge which accepts none does
not read the command word, and the effect of each command (R201 to R206). -/

namespace Sys2Proof.Machine

/-! ## An edge that accepts no word -/

/-- R170: an edge in IDLE with nothing offered only takes its inputs. -/
theorem step_of_idle_quiet {s : State} (hw : s.cfg.wellFormed = true) (hrst : s.sampled.rst = false)
    (hp : s.phase = .idle) (hvalid : s.sampled.cmdValid = false) : step s = .next (dropInput s) := by
  rw [step_of_idle hw hrst hp, idleEdge, if_neg (by simp [hvalid]), mapNext_next]

/-- The state before an edge at which the host drops its offer, with `w` left standing on the command lines. -/
def withdrawOffer (w : CmdWord) (s : State) : State :=
  withInputs ({ s.sampled with cmdValid := false, cmd := w } :: s.inputs.drop 1) s

theorem dropInput_withdrawOffer (w : CmdWord) (s : State) : dropInput (withdrawOffer w s) = dropInput s := rfl

/-- R200: the three edges that accept nothing are a reset, a busy one, and one in IDLE with nothing offered; the offer
enters none of them. -/
theorem step_withdrawOffer {s : State} (hw : s.cfg.wellFormed = true) (hacc : s.accepts = false) (w : CmdWord) :
    step (withdrawOffer w s) = step s := by
  cases hrst : s.sampled.rst with
  | true =>
    rw [step_of_rst hw hrst, step_of_rst (s := withdrawOffer w s) hw hrst]
    rfl
  | false =>
    by_cases hp : s.phase = .idle
    · have hvalid : s.sampled.cmdValid = false := by
        rw [← Bool.not_eq_true] at hacc ⊢
        exact fun hv => hacc ((accepts_iff s).mpr ⟨hrst, hv, hp⟩)
      rw [step_of_idle_quiet hw hrst hp hvalid, step_of_idle_quiet (s := withdrawOffer w s) hw hrst hp rfl,
        dropInput_withdrawOffer]
    · rw [step_of_busy hp hrst, step_of_busy (s := withdrawOffer w s) hp hrst]
      rfl

/-- Settles O38: acceptance as the conjunction of its three conditions, the accepted word's own effect, and an offer
that no edge reads. -/
theorem handshakeDecidesAcceptance : Obligations.HandshakeDecidesAcceptance :=
  fun s hw => ⟨accepts_iff s, step_of_accepts hw, step_withdrawOffer hw⟩

/-! ## NOP, CLEAR and an illegal word -/

/-- Settles O39: the meaning of NOP is the state as it is. -/
theorem nopChangesNothing : Obligations.NopChangesNothing := fun _ => rfl

/-- Settles O41: the meaning of CLEAR, with `clearFlags` written out. -/
theorem clearEmptiesTheBuffer : Obligations.ClearEmptiesTheBuffer := fun _ => rfl

/-- Settles O44: the meaning of an illegal word is `setIll`, whatever the word. -/
theorem illegalSetsIllOnly : Obligations.IllegalSetsIllOnly := fun _ _ => rfl

/-! ## APPEND -/

/-- R202 from R6 alone: MSG_MAX is at most 255, so `len + 1` does not wrap while the buffer is not full. -/
theorem toNat_len_add_one_of_room {s : State} (hw : s.cfg.wellFormed = true) (hroom : s.len.toNat < s.cfg.msgMax) :
    (s.len + 1#8).toNat = s.len.toNat + 1 := by
  have hmax : s.cfg.msgMax ≤ 255 := by have := ranges_of_wellFormed hw; omega
  exact BitVec.toNat_add_of_lt (show s.len.toNat + 1 < 2 ^ 8 by omega)

/-- Settles O40: the store by read after write, the dropped APPEND by its own equation. -/
theorem appendStoresAtLenOrDrops : Obligations.AppendStoresAtLenOrDrops := by
  intro c s hw
  refine ⟨fun hroom => ?store, fun hfull => ?drop⟩
  case store =>
    exact ⟨storeChar c s, exec_append_of_room hroom, toNat_len_add_one_of_room hw hroom,
      read_write_same s.mb s.len.toNat c, fun _ ha => read_write_other s.mb c ha, rfl⟩
  case drop => exact exec_append_of_full (Nat.not_lt.mpr hfull)

/-! ## SEND -/

/-- Settles O42: the SEND that enters WARMUP, with `enter` written out. -/
theorem sendEntersWarmup : Obligations.SendEntersWarmup := fun _ => exec_send_of_unsuppressed

theorem step_of_suppressedSend {s : State} (hw : s.cfg.wellFormed = true) (hacc : s.accepts = true)
    (hcmd : decodeCommand s.sampled.cmd = .send) (hsup : s.sampled.suppress = true) :
    step s = .next (dropInput s) := by
  rw [step_of_accepts hw hacc, hcmd, exec_send_of_suppressed hsup, mapNext_next]

/-- Settles O43: the accepting edge only takes its inputs, so the block is still in IDLE, which fixes the outputs. -/
theorem suppressedSendIsANoOp : Obligations.SuppressedSendIsANoOp := by
  intro s hsup
  refine ⟨exec_send_of_suppressed hsup, fun hw hacc hcmd => ?edge⟩
  have hidle : (dropInput s).phase = .idle := ((accepts_iff s).mp hacc).2.2
  refine ⟨dropInput s, step_of_suppressedSend hw hacc hcmd hsup, rfl, ?gate, ?key, ?ready⟩
  case gate => rw [State.gateOut, hidle, gate_idle]
  case key => rw [State.keyOut, hidle, key_idle]
  case ready => exact decide_eq_true hidle

end Sys2Proof.Machine
end

section
/-! PROOFS. The statement of 60_exceptions.md: the block never stops (R230).  Of the branches of one edge only a character
start can fault, and the invariant has its character written (R71). -/

namespace Sys2Proof.Machine

/-- Every edge in IDLE without reset answers, whatever word is offered: each command has an effect (R82, R170). -/
theorem exists_step_of_idle {s : State} (hw : s.cfg.wellFormed = true) (hrst : s.sampled.rst = false)
    (hp : s.phase = .idle) : ∃ t, step s = .next t := by
  cases hvalid : s.sampled.cmdValid with
  | false => exact ⟨dropInput s, step_of_idle_quiet hw hrst hp hvalid⟩
  | true =>
    have hacc : s.accepts = true := (accepts_iff s).mpr ⟨hrst, hvalid, hp⟩
    obtain ⟨t, hexec, -⟩ := exec_hostCommand s (decodeCommand_format s.sampled.cmd)
    exact ⟨dropInput t, by rw [step_of_accepts hw hacc, hexec, mapNext_next]⟩

/-- A reset edge answers in every phase; without reset the invariant leaves IDLE and the segments. -/
theorem exists_step_of_inv {s : State} (hinv : Inv s) : ∃ t, step s = .next t := by
  have hw : s.cfg.wellFormed = true := (registersOk_of_inv hinv).wellFormed
  cases hrst : s.sampled.rst with
  | true => exact ⟨_, step_of_rst hw hrst⟩
  | false =>
    rcases idle_or_inSegment_of_inv hinv with hidle | hseg
    · exact exists_step_of_idle hw hrst hidle
    · obtain ⟨t, hstep, -⟩ := step_takes_a_cycle hinv hseg hrst
      exact ⟨t, hstep⟩

/-- Settles O56: the invariant reads no input, so it holds before whatever inputs come. -/
theorem noStepStops : Obligations.NoStepStops := by
  intro s ins hinv
  have hins : Inv (withInputs ins s) := hinv
  exact exists_step_of_inv hins

end Sys2Proof.Machine
end

section
/-! PROOFS. The statements of 70_reset_and_hazards.md: what a reset edge loads, keeps and does not read (R260 to R262), and
what the block shows at the edge after an accepted command (R268). -/

namespace Sys2Proof.Machine

/-! ## The reset edge -/

/-- R42, R43: in IDLE, with no message and no flag, every output has its idle value. -/
theorem outputs_of_idle_empty {s : State} (hp : s.phase = .idle) (hlen : s.len = 0#8) (hovf : s.ovf = false)
    (hill : s.ill = false) : s.outputs = ⟨false, false, false, false, false, true, 0x0000#16⟩ := by
  have hgate : s.gateOut = false := by rw [State.gateOut, hp, gate_idle]
  have hkey : s.keyOut = false := by rw [State.keyOut, hp, key_idle]
  have hready : s.cmdReady = true := decide_eq_true hp
  have hbusy : s.busy = false := by simpa [s.cmdReady_eq_not_busy] using hready
  simp [State.outputs, State.status, State.toneOut, State.ledOut, hgate, hkey, hready, hbusy, hlen, hovf, hill]

/-- R261: of this edge's inputs a reset edge reads `rst` alone. -/
theorem step_withInputs_of_rst {s : State} (hw : s.cfg.wellFormed = true) (hrst : s.sampled.rst = true) {b : Inputs}
    (hb : b.rst = true) : step (withInputs (b :: s.inputs.drop 1) s) = step s := by
  rw [step_of_rst hw hrst, step_of_rst (s := withInputs (b :: s.inputs.drop 1) s) hw hb]
  rfl

/-- Settles O57: the reset edge is `resetRegisters` written out, whose registers fix the outputs, and it reads no other
input. -/
theorem resetEdgeLoadsTheResetValues : Obligations.ResetEdgeLoadsTheResetValues :=
  fun s hw hrst =>
    ⟨⟨dropInput (resetRegisters s), step_of_rst hw hrst, rfl, outputs_of_idle_empty rfl rfl rfl rfl⟩,
      fun _ => step_withInputs_of_rst hw hrst⟩

/-! ## The edge after an accepted command -/

/-- R42: every output but `status` is a function of `phase`. -/
theorem outputs_eq_but_status {s t : State} (h : t.phase = s.phase) :
    { t.outputs with status := s.status } = s.outputs := by
  simp only [State.outputs, State.gateOut, State.keyOut, State.toneOut, State.ledOut, State.busy, State.cmdReady, h]

/-- R201 to R206: of the commands only an unsuppressed SEND leaves IDLE. -/
theorem CommandEffect.phase_kept {s t : State} {i : Instr} (h : CommandEffect s i t)
    (hi : i ≠ .send ∨ s.sampled.suppress = true) : t.phase = s.phase := by
  cases h with
  | send hsup => simp [hsup] at hi
  | _ => rfl

/-- R268: the next edge can accept again, and what the host sees beside `status` is as before. -/
theorem step_of_accepts_keeps_outputs {s : State} (hw : s.cfg.wellFormed = true) (hacc : s.accepts = true)
    (hi : decodeCommand s.sampled.cmd ≠ .send ∨ s.sampled.suppress = true) :
    ∃ t, step s = .next t ∧ t.cmdReady = true ∧ { t.outputs with status := s.status } = s.outputs := by
  obtain ⟨u, hexec, heffect⟩ := exec_hostCommand s (decodeCommand_format s.sampled.cmd)
  have hphase : (dropInput u).phase = s.phase := heffect.phase_kept hi
  have hidle : s.phase = .idle := ((accepts_iff s).mp hacc).2.2
  exact ⟨dropInput u, by rw [step_of_accepts hw hacc, hexec, mapNext_next], decide_eq_true (hphase.trans hidle),
    outputs_eq_but_status hphase⟩

/-- Settles O59: a command that keeps `phase` keeps the block ready, and the accepted SEND has entered WARMUP. -/
theorem acceptedCommandTakesOneEdge : Obligations.AcceptedCommandTakesOneEdge :=
  fun s hw hacc =>
    ⟨step_of_accepts_keeps_outputs hw hacc,
      fun ⟨hcmd, hsup⟩ => ⟨sent s, step_of_acceptsSend hw ⟨hacc, hcmd, hsup⟩, rfl, rfl⟩⟩

end Sys2Proof.Machine
end
